-- ==== Sys2Proof/Word.lean ====
section
/-! DEFINITION. The word type of the hardware.

Every value of this hardware (memory cell, register, flags register, operand byte) is an unsigned byte:
spec/00_scope.md R6, spec/20_memory.md R43. No value is signed and none is wider. -/

namespace Sys2Proof

/-- An 8-bit unsigned value; bit 0 is the least significant (R6). -/
abbrev Byte := BitVec 8

end Sys2Proof
end

