-- ==== Sys2Proof/Config.lean ====
section
/-! DEFINITION. The implementation parameters of spec/00_scope.md R5.

REG_INIT and MEM_INIT are OPEN: the spec quantifies over them (R16, R42), and so does every statement about reset that
takes a configuration. No instruction of this hardware has an undefined result, so there is no free value here. -/

namespace Sys2Proof

/-- `UNKNOWN_OPCODE_POLICY` (R5): what a step does with an opcode byte outside the map (R69, R77). -/
inductive UnknownOpcodePolicy where
  /-- The step raises `UnknownOpcode`; this hardware's default (D7). -/
  | fault
  /-- The step only advances `pc` by one; the reference's lenient behaviour (R77). -/
  | skip
  deriving DecidableEq, Repr

/-- The parameters of R5 that a model takes. -/
structure Config where
  /-- `MEM_SIZE`, the number of byte addresses; at least 1 (D1). -/
  memSize : Nat
  /-- `UNKNOWN_OPCODE_POLICY`. -/
  unknownOpcode : UnknownOpcodePolicy
  /-- `REG_INIT`, the reset values of R0..R6 (R16). -/
  regInit : Vector Byte 7
  /-- `MEM_INIT`, the reset contents of memory from address 0 on (R42); a list shorter than memory stands for the
  array that it begins and that zeros complete. -/
  memInit : List Byte
  deriving DecidableEq, Repr

/-- What R5 asks of a configuration: `MEM_SIZE >= 1`, so that the reset `pc` is in memory (D1). -/
abbrev Config.wf (c : Config) : Prop := 1 ≤ c.memSize

/-- `MEM_INIT[a]`: what a cell that nothing has written since reset holds (R42). -/
def Config.memInitAt (c : Config) (a : Nat) : Byte := c.memInit.getD a 0

/-- `REG_INIT` with R7's own reset value 0xF4 (R15, R16): the whole register file at reset. -/
def Config.regsAtReset (c : Config) : Vector Byte 8 := c.regInit.push 0xF4#8

/-- This hardware: `MEM_SIZE = 256` and policy `Fault` (R5), with zeros for the two OPEN parameters.
DESIGN CHOICE (logs 2 and 3), unsafe: the spec gives no reset value for R0..R6 or for memory and names this zero
fill "a parity configuration only" (R42, D4, D5), "never … a fact of the hardware". -/
def Config.parity : Config where
  memSize := 256
  unknownOpcode := .fault
  regInit := Vector.replicate 7 0
  memInit := []

end Sys2Proof
end

