-- ==== Sys2Proof/Machine/State.lean ====
section
/-! DEFINITION. The state of the core (spec/10_state.md), the reasons a step can stop, and reset. -/

namespace Sys2Proof.Machine

/-- One of the registers R0..R7 (R11). -/
abbrev Reg := Fin 8

/-- Memory as the cells that differ from their reset contents, by rising address (R33, R42). -/
abbrev Memory := List Host.Cell

/-- The run status (R29). -/
inductive Status where
  /-- Reset, not yet run. -/
  | idle
  /-- The fetch-decode-execute loop is executing. -/
  | running
  /-- HALT completed. -/
  | halted
  /-- A fault stopped the core. -/
  | faulted
  deriving DecidableEq, Repr

/-- The fault kinds that a step of the core raises (R98). -/
inductive FaultKind where
  /-- The opcode byte is not in the map, policy `Fault` (R99). -/
  | unknownOpcode
  /-- OutOfBounds (Memory): an operand address or the next `pc` is not below `MEM_SIZE` (R100). -/
  | outOfBoundsMemory
  /-- OutOfBounds (Register): a register operand byte is 8 or more (R101). -/
  | outOfBoundsRegister
  deriving DecidableEq, Repr

/-- The record a fault leaves: `(kind, pc = a, detail)` (R30); the detail is the offending byte or address (R98). -/
structure FaultRecord where
  kind : FaultKind
  pc : Nat
  detail : Nat
  deriving DecidableEq, Repr

/-- The state of the core (R10), with the configuration it was built with. -/
structure State where
  /-- The parameters of R5: configuration, not state; nothing ever writes it. DESIGN CHOICE (log 1), safe: it rides here
  because the types of `exec` and `step` are fixed. -/
  cfg : Config
  /-- The memory array (R33). -/
  mem : Memory
  /-- The register file R0..R7 (R11). -/
  regs : Vector Byte 8
  /-- The flags register FL (R23). -/
  fl : Byte
  /-- The program counter (R18). -/
  pc : Nat
  /-- The run status (R29). -/
  status : Status
  /-- The fault record (R30). -/
  fault : Option FaultRecord
  /-- What PRN has sent to the output sink, oldest first (R31). -/
  out : List Byte
  deriving DecidableEq, Repr

/-- Why the machine's step stops with a fault. The core's own faults are not here: R75 describes the state they leave,
so the step that raises one answers that state as its next state (log 6). -/
inductive Fault where
  /-- Raised by `step` alone, on a core that is not Running: "In Idle, Halted and Faulted the core has no step" (R67).
  Safe: the hardware makes no step there either (log 4). -/
  | notRunning (status : Status)
  deriving DecidableEq, Repr

/-- Why the model gives an instruction no meaning. -/
inductive Refusal where
  /-- Raised by an arm of `exec` whose instruction has no meaning yet. Safe. No arm of this model raises it. -/
  | notModelled (mnemonic : String)
  deriving DecidableEq, Repr

/-- The state after reset of a core of configuration `c` (R115); construction gives the same state (R116). -/
def State.resetWith (c : Config) : State where
  cfg := c
  mem := []
  regs := c.regsAtReset
  fl := 0
  pc := 0
  status := .idle
  fault := none
  out := []

/-- This hardware right after reset (R115), its OPEN parameters taken as zero. DESIGN CHOICE (logs 2 and 3), unsafe. -/
def State.reset : State := State.resetWith Config.parity

end Sys2Proof.Machine
end

