-- ==== Sys2Proof/Machine/Errors.lean ====
section
/-! DEFINITION. The error kinds of spec/60_exceptions.md R98 that are returned to a caller, and the codes of all of them.

They are answers of host operations, of the loader and of the ALU's interface; they change no state (R102, R103, R104). -/

namespace Sys2Proof.Machine

/-- An error returned to the caller of a host operation, of the loader or of the ALU's interface. -/
inductive HostError where
  /-- An address outside memory, or the length of an image longer than memory (R38-R40). -/
  | outOfBounds (detail : Int)
  /-- A value outside 0..255 (R39, R40, R65). -/
  | invalidValue (value : Int)
  /-- An ALU operation select other than ADD, SUB and MUL (R88). -/
  | unsupportedOperation (select : String)
  /-- The program source cannot be opened (R65, R104). -/
  | sourceNotFound (name : String)
  /-- A line of the program text that is no binary literal (R65, R104). -/
  | malformedInstruction (line : List Char)
  /-- The model's own: a host operation asked for while the core is Running, where R41 says none happens. DESIGN CHOICE
  (log 9), safe. -/
  | busy
  deriving DecidableEq, Repr

/-- The code of a fault raised by a core step (R98). -/
def FaultKind.code : FaultKind → Nat
  | .unknownOpcode => 1
  | .outOfBoundsMemory => 2
  | .outOfBoundsRegister => 2

/-- The code of an error returned to a caller (R98); `busy` is no error kind of the spec and has none. -/
def HostError.code? : HostError → Option Nat
  | .outOfBounds _ => some 2
  | .invalidValue _ => some 3
  | .unsupportedOperation _ => some 4
  | .sourceNotFound _ => some 5
  | .malformedInstruction _ => some 6
  | .busy => none

end Sys2Proof.Machine
end

