-- ==== Sys2Proof/Syntax.lean ====
section
/-! DEFINITION. The instructions: one constructor for each of the eight rows of spec/opcode_table.json.

A register operand is kept as the whole operand byte (R56): a byte 8..255 never makes an instruction illegal at decode
(R61); it faults in the step (R71). -/

namespace Sys2Proof

/-- The eight instructions of R58, with their operand bytes in encoding order. -/
inductive Instr where
  /-- HALT, format F0 (R80). -/
  | halt
  /-- LDI reg, imm, format FRI (R81). -/
  | ldi (reg imm : Byte)
  /-- PRN reg, format FR (R82). -/
  | prn (reg : Byte)
  /-- MUL ra, rb, format FRR (R90). -/
  | mul (ra rb : Byte)
  /-- JMP reg, format FR (R94). -/
  | jmp (reg : Byte)
  /-- CMP ra, rb, format FRR (R92). -/
  | cmp (ra rb : Byte)
  /-- JEQ reg, format FR (R95). -/
  | jeq (reg : Byte)
  /-- JNE reg, format FR (R96). -/
  | jne (reg : Byte)
  deriving DecidableEq, Repr

/-- The register operand bytes, in the order in which R71 checks them. LDI's second operand is an immediate and is not
among them. -/
def Instr.regOperands : Instr → List Byte
  | .halt => []
  | .ldi reg _ => [reg]
  | .prn reg => [reg]
  | .mul ra rb => [ra, rb]
  | .jmp reg => [reg]
  | .cmp ra rb => [ra, rb]
  | .jeq reg => [reg]
  | .jne reg => [reg]

/-- The number of operand bytes, `k` of R69 (R55, R58). -/
def Instr.operandCount : Instr → Nat
  | .halt => 0
  | .ldi _ _ => 2
  | .prn _ => 1
  | .mul _ _ => 2
  | .jmp _ => 1
  | .cmp _ _ => 2
  | .jeq _ => 1
  | .jne _ => 1

/-- `len`, the total length in bytes: operand count + 1 (R54). -/
def Instr.size (i : Instr) : Nat := i.operandCount + 1

end Sys2Proof
end

