-- ==== Sys2Proof/WellFormed.lean ====
section
/-! DEFINITION. Well-formed instructions: every register operand names a register.

R56: "Only 0..7 name a register". An immediate has no illegal value (R57, R61). A term that is not well-formed still
decodes and still has a meaning: its step raises OutOfBounds(Register) (R71). -/

namespace Sys2Proof

/-- Every register operand byte is in 0..7 (R56). -/
def Instr.wf (i : Instr) : Bool := i.regOperands.all fun b => decide (b.toNat < 8)

end Sys2Proof
end

