-- ==== Sys2Proof/Decode.lean ====
section
/-! DEFINITION. The opcode map, the decoder and the encoder (spec/30_encoding.md R53-R62).

The decoder is total on any list of bytes. It selects by the whole opcode byte (R58) and never sizes or classifies an
unknown byte by its bits (R59, R60). -/

namespace Sys2Proof

/-- The rows of the opcode map (R58), named by mnemonic. -/
inductive Opcode where
  | halt | ldi | prn | mul | jmp | cmp | jeq | jne
  deriving DecidableEq, Repr

/-- The opcode byte of each row, as R58 writes it in binary. -/
def Opcode.byte : Opcode → Byte
  | .halt => 0b00000001#8
  | .ldi => 0b10000010#8
  | .prn => 0b01000111#8
  | .mul => 0b10100010#8
  | .jmp => 0b01010100#8
  | .cmp => 0b10100111#8
  | .jeq => 0b01010101#8
  | .jne => 0b01010110#8

/-- All rows of the opcode map, in the table's order. -/
def Opcode.all : List Opcode := [.halt, .ldi, .prn, .mul, .jmp, .cmp, .jeq, .jne]

/-- The row an opcode byte selects; none for the 248 unknown bytes (R58, R60). -/
def Opcode.ofByte? (b : Byte) : Option Opcode := Opcode.all.find? fun o => o.byte == b

/-- What the decoder answers. -/
inductive Decoded where
  /-- An instruction, and the bytes after it. -/
  | ok (i : Instr) (rest : List Byte)
  /-- The opcode byte is not in the map: "the **UnknownOpcode** error state" (R60, R69). -/
  | unknownOpcode (op : Byte)
  /-- The byte at this offset from the opcode's place is needed and missing: 0 is the opcode byte itself, 1 and 2 the
  operand bytes (R55, R70). -/
  | truncated (offset : Nat)
  deriving DecidableEq, Repr

/-- Format FR: one register operand byte (R55). -/
def decodeFR (mk : Byte → Instr) : List Byte → Decoded
  | [] => .truncated 1
  | b1 :: rest => .ok (mk b1) rest

/-- Formats FRI and FRR: two operand bytes; the lower address is looked at first (R55, R70). -/
def decodeFRR (mk : Byte → Byte → Instr) : List Byte → Decoded
  | [] => .truncated 1
  | [_] => .truncated 2
  | b1 :: b2 :: rest => .ok (mk b1 b2) rest

/-- The operand bytes of a known opcode, by its row's format (R55, R58). -/
def Opcode.decodeOperands : Opcode → List Byte → Decoded
  | .halt, rest => .ok .halt rest
  | .ldi, rest => decodeFRR .ldi rest
  | .prn, rest => decodeFR .prn rest
  | .mul, rest => decodeFRR .mul rest
  | .jmp, rest => decodeFR .jmp rest
  | .cmp, rest => decodeFRR .cmp rest
  | .jeq, rest => decodeFR .jeq rest
  | .jne, rest => decodeFR .jne rest

/-- The decoder: one instruction from the front of a list of bytes (R53, R69). -/
def decode : List Byte → Decoded
  | [] => .truncated 0
  | op :: rest =>
    match Opcode.ofByte? op with
    | none => .unknownOpcode op
    | some o => o.decodeOperands rest

/-- The bytes of an instruction, opcode first, operands at ascending addresses (R55, R58). -/
def encode : Instr → List Byte
  | .halt => [0x01#8]
  | .ldi reg imm => [0x82#8, reg, imm]
  | .prn reg => [0x47#8, reg]
  | .mul ra rb => [0xA2#8, ra, rb]
  | .jmp reg => [0x54#8, reg]
  | .cmp ra rb => [0xA7#8, ra, rb]
  | .jeq reg => [0x55#8, reg]
  | .jne reg => [0x56#8, reg]

/-- The three bytes of an instruction given as the opcode table numbers its bits: bit 0 is the least significant bit of
the first byte, the second byte is bits 15..8, the third bits 23..16, and every bit from `nbits` up is 0. Three bytes
are the longest instruction (R54). -/
def tableWordBytes (nbits w : Nat) : List Byte :=
  let v := w % 2 ^ nbits
  [BitVec.ofNat 8 v, BitVec.ofNat 8 (v / 2 ^ 8), BitVec.ofNat 8 (v / 2 ^ 16)]

/-- The instruction the decoder reads from a word of the opcode table. -/
def decodeTableWord (nbits w : Nat) : Option Instr :=
  match decode (tableWordBytes nbits w) with
  | .ok i _ => some i
  | .unknownOpcode _ => none
  | .truncated _ => none

end Sys2Proof
end

