-- ==== Sys2Proof/Machine/Ops.lean ====
section
/-! DEFINITION. The named operations over memory, registers and status that every instruction is built from: the memory
primitives (spec/20_memory.md), the state accessors (spec/10_state.md), the raising of a fault and the commit of a step
(spec/40_cycle.md R73-R75), and the fetch of an instruction's bytes (R68, R70).

There is no return from a fault: only reset leaves Faulted (R108). -/

namespace Sys2Proof.Machine

/-- What one instruction or one step answers. -/
abbrev Result := Host.Outcome State Fault Refusal

/-! ### Memory -/

/-- The byte at an address: the listed cell, or the reset contents where none is listed (R42). -/
def Memory.read (c : Config) : Memory → Nat → Byte
  | [], a => c.memInitAt a
  | (k, b) :: m, a => if k = a then b else Memory.read c m a

/-- Write one byte, keeping addresses rising and no cell equal to its reset contents. -/
def Memory.write (c : Config) : Memory → Nat → Byte → Memory
  | [], a, v => if v = c.memInitAt a then [] else [(a, v)]
  | (k, b) :: m, a, v =>
    if a < k then (if v = c.memInitAt a then (k, b) :: m else (a, v) :: (k, b) :: m)
    else if a = k then (if v = c.memInitAt a then m else (a, v) :: m)
    else (k, b) :: Memory.write c m a v

/-- The canonical form from address `lo` on: rising addresses, all in memory, no cell equal to its reset contents. -/
def Memory.wfFrom (c : Config) : Nat → Memory → Bool
  | _, [] => true
  | lo, (a, b) :: m =>
    decide (lo ≤ a) && decide (a < c.memSize) && decide (b ≠ c.memInitAt a) && Memory.wfFrom c (a + 1) m

/-- The canonical form of memory. -/
def Memory.wf (c : Config) (m : Memory) : Bool := Memory.wfFrom c 0 m

/-- Write bytes at consecutive addresses from `a` on, those outside memory left out. -/
def Memory.writeBytes (c : Config) (m : Memory) (a : Nat) : List Byte → Memory
  | [] => m
  | v :: vs => Memory.writeBytes c (if a < c.memSize then Memory.write c m a v else m) (a + 1) vs

/-- `MemRead(addr, 1)` of R37; none is the case in which it raises OutOfBounds. -/
def State.memRead (s : State) (a : Nat) : Option Byte :=
  if a < s.cfg.memSize then some (Memory.read s.cfg s.mem a) else none

/-! ### Registers, flags, output, status -/

/-- `R[i]` (R7). -/
def State.getReg (s : State) (r : Reg) : Byte := s.regs[r.val]

/-- `R[i] <- v` (R7); every register is written the same way (R12). -/
def State.setReg (s : State) (r : Reg) (v : Byte) : State := { s with regs := s.regs.set r.val v }

/-- `FL <- v` (R7). -/
def State.setFl (s : State) (v : Byte) : State := { s with fl := v }

/-- `pc <- target` (R7). -/
def State.setPc (s : State) (a : Nat) : State := { s with pc := a }

/-- `Emit(v)`: append to the output stream (R7, R31). -/
def State.emit (s : State) (v : Byte) : State := { s with out := s.out ++ [v] }

/-- `status <- v` (R7). -/
def State.setStatus (s : State) (v : Status) : State := { s with status := v }

/-! ### Taking a fault, and completing a step -/

/-- The state a fault leaves: the state before the step, with `status <- Faulted` and
`fault <- (kind, pc = a, detail)` and nothing else (R75, R107). -/
def State.raised (s : State) (kind : FaultKind) (detail : Nat) : State :=
  { s with status := .faulted, fault := some ⟨kind, s.pc, detail⟩ }

/-- `raise kind(pc = a, detail)`: the step ends as a fault of the core. -/
def raise (kind : FaultKind) (detail : Nat) (s : State) : Result := .next (s.raised kind detail)

/-- The end of a step that sets `pc`: if `next` is in memory, the instruction's writes, collected in `t`, and `pc` take
effect together (R74); otherwise the step raises OutOfBounds(Memory, next) and none of them does (R73, R75). -/
def commit (s t : State) (next : Nat) : Result :=
  if next < s.cfg.memSize then .next (t.setPc next) else raise .outOfBoundsMemory next s

/-! ### Fetch -/

/-- The bytes of memory at `pc`, `pc + 1` and `pc + 2`, those outside memory left out: all that one instruction can
need (R54, R55). DEDUCED (log 7), safe: reading past a short instruction has no effect (R45). -/
def State.fetchWindow (s : State) : List Byte := [s.pc, s.pc + 1, s.pc + 2].filterMap s.memRead

/-- A step whose opcode byte is unknown: fault or skip, by policy (R60, R69, R77). -/
def unknownOpcodeStep (op : Byte) (s : State) : Result :=
  match s.cfg.unknownOpcode with
  | .fault => raise .unknownOpcode op.toNat s
  | .skip => commit s s (s.pc + 1)

/-- Store the bytes of an instruction where the core fetches next. -/
def State.placeAtPc (s : State) (bytes : List Byte) : State :=
  { s with mem := Memory.writeBytes s.cfg s.mem s.pc bytes }

end Sys2Proof.Machine
end

