-- ==== Sys2Proof/Machine/Alu.lean ====
section
/-! DEFINITION. The 8-bit integer ALU (spec/43_alu.md R83-R89).

ADD and SUB are operations of the ALU with no instruction (R84): they are reached through the ALU's interface only. -/

namespace Sys2Proof.Machine

/-- The ALU's named operations (R83). -/
inductive AluOp where
  | add | sub | mul
  deriving DecidableEq, Repr

/-- The result of an operation, modulo 256: `f_ADD`, `f_SUB`, `f_MUL` (R85, R86, R87). -/
def AluOp.result : AluOp → Byte → Byte → Byte
  | .add, a, b => BitVec.ofNat 8 (a.toNat + b.toNat)
  | .sub, a, b => BitVec.ofInt 8 ((a.toNat : Int) - (b.toNat : Int))
  | .mul, a, b => BitVec.ofNat 8 (a.toNat * b.toNat)

/-- `ALU(op, ra, rb)`: both registers are read before `R[ra]` is written, and nothing else is (R83). -/
def alu (op : AluOp) (ra rb : Reg) (s : State) : State :=
  s.setReg ra (op.result (s.getReg ra) (s.getReg rb))

/-- The operation a select names: exactly ADD, SUB and MUL (R88). DEDUCED (log 13): the select is the operation's name
as R83 writes it. -/
def AluOp.ofName? (select : String) : Option AluOp :=
  if select = "ADD" then some .add
  else if select = "SUB" then some .sub
  else if select = "MUL" then some .mul
  else none

/-- The ALU's interface: an unrecognised operation name fails with UnsupportedOperation and writes nothing (R88). -/
def aluInterface (select : String) (ra rb : Reg) (s : State) : Except HostError State :=
  match AluOp.ofName? select with
  | some op => .ok (alu op ra rb s)
  | none => .error (.unsupportedOperation select)

end Sys2Proof.Machine
end

