-- ==== Sys2Proof/Machine/Flags.lean ====
section
/-! DEFINITION. The flags register FL (spec/10_state.md R23) and its one computation (spec/43_alu.md R91).

No ALU operation has a carry, overflow, zero or negative flag (R89); FL is written only by CMP (R25). -/

namespace Sys2Proof.Machine

/-- E, bit 0: the last comparison found its operands equal (R23). -/
def flagE (fl : Byte) : Bool := fl[0]

/-- L, bit 1: the first compared value was less than the second (R23, C3). -/
def flagL (fl : Byte) : Bool := fl[1]

/-- G, bit 2: the first compared value was greater than the second (R23, C3). -/
def flagG (fl : Byte) : Bool := fl[2]

/-- `Compare(A, B)`, unsigned on 8-bit values (R91). -/
def compareFlags (a b : Byte) : Byte :=
  if a = b then 0b001#8 else if a.toNat < b.toNat then 0b010#8 else 0b100#8

end Sys2Proof.Machine
end

