-- ==== Sys2Proof/Machine/Operands.lean ====
section
/-! DEFINITION. The operand forms of spec/30_encoding.md R56, R57 and their check, spec/40_cycle.md R71.

There are two forms: a register operand, the whole byte read as an index, and LDI's immediate, the whole byte used
unchanged (R57), which needs no operation. -/

namespace Sys2Proof.Machine

/-- The register an operand byte names; none for 8..255, never masked or wrapped (R56). -/
def regIndex? (b : Byte) : Option Reg := if h : b.toNat < 8 then some ⟨b.toNat, h⟩ else none

/-- One register operand (FR, FRI): checked before any effect; 8..255 raises OutOfBounds(Register) with the byte
(R71). -/
def withReg (b : Byte) (s : State) (k : Reg → Result) : Result :=
  match regIndex? b with
  | some r => k r
  | none => raise .outOfBoundsRegister b.toNat s

/-- Two register operands (FRR): the first is checked before the second (R71, R76). -/
def withRegs (b1 b2 : Byte) (s : State) (k : Reg → Reg → Result) : Result :=
  withReg b1 s fun ra => withReg b2 s fun rb => k ra rb

end Sys2Proof.Machine
end

