-- ==== Sys2Proof/Machine/AluCompare.lean ====
section
/-! DEFINITION. The meanings of MUL and CMP (spec/43_alu.md). -/

namespace Sys2Proof.Machine

/-- MUL ra, rb (R90): `ALU(MUL, b1, b2); next <- a + 3`; FL keeps its value. -/
def execMul (ra rb : Byte) (s : State) : Result :=
  withRegs ra rb s fun a b => commit s (alu .mul a b s) (s.pc + 3)

/-- CMP ra, rb (R92): `FL <- Compare(R[b1], R[b2]); next <- a + 3`; no register is written. -/
def execCmp (ra rb : Byte) (s : State) : Result :=
  withRegs ra rb s fun a b => commit s (s.setFl (compareFlags (s.getReg a) (s.getReg b))) (s.pc + 3)

end Sys2Proof.Machine
end

