-- ==== Sys2Proof/Machine/Branch.lean ====
section
/-! DEFINITION. The meanings of JMP, JEQ and JNE (spec/44_branch.md).

The target is the register's value, an absolute address; a taken jump does not advance `pc` further, and the register
operand is checked whether or not the jump is taken (R93). -/

namespace Sys2Proof.Machine

/-- A conditional jump: to the register's value if taken, else past the two bytes (R93). -/
def branchIf (taken : Bool) (reg : Byte) (s : State) : Result :=
  withReg reg s fun r => commit s s (if taken then (s.getReg r).toNat else s.pc + 2)

/-- JMP reg (R94): `next <- R[b1]`. -/
def execJmp (reg : Byte) (s : State) : Result :=
  branchIf true reg s

/-- JEQ reg (R95): taken if `FL[0] = 1`. -/
def execJeq (reg : Byte) (s : State) : Result :=
  branchIf (flagE s.fl) reg s

/-- JNE reg (R96): taken if `FL[1] = 1 or FL[2] = 1`; not a test of E clear, so not taken when FL = 0. -/
def execJne (reg : Byte) (s : State) : Result :=
  branchIf (flagL s.fl || flagG s.fl) reg s

end Sys2Proof.Machine
end

