-- ==== Sys2Proof/Machine/MachineControl.lean ====
section
/-! DEFINITION. The meaning of HALT (spec/41_halt.md). -/

namespace Sys2Proof.Machine

/-- HALT (R80): `status <- Halted`; `pc` stays at the HALT, so there is no next `pc` to check. -/
def execHalt (s : State) : Result := .next (s.setStatus .halted)

end Sys2Proof.Machine
end

