-- ==== Sys2Proof/Machine/RegisterIo.lean ====
section
/-! DEFINITION. The meanings of LDI and PRN (spec/42_register_io.md). -/

namespace Sys2Proof.Machine

/-- LDI reg, imm (R81): `R[b1] <- b2; next <- a + 3`. -/
def execLdi (reg imm : Byte) (s : State) : Result :=
  withReg reg s fun r => commit s (s.setReg r imm) (s.pc + 3)

/-- PRN reg (R82): `Emit(R[b1]); next <- a + 2`. -/
def execPrn (reg : Byte) (s : State) : Result :=
  withReg reg s fun r => commit s (s.emit (s.getReg r)) (s.pc + 2)

end Sys2Proof.Machine
end

