-- ==== Sys2Proof/Machine/Dispatch.lean ====
section
/-! DEFINITION. The execute phase (spec/40_cycle.md R72): one meaning for each instruction. -/

namespace Sys2Proof.Machine

/-- What an instruction at `pc` does to the state; the status is the step's to check (R67). -/
def exec (i : Instr) (s : State) : Host.Outcome State Fault Refusal :=
  match i with
  | .halt => Sys2Proof.Machine.execHalt s
  | .ldi reg imm => Sys2Proof.Machine.execLdi reg imm s
  | .prn reg => Sys2Proof.Machine.execPrn reg s
  | .mul ra rb => Sys2Proof.Machine.execMul ra rb s
  | .jmp reg => Sys2Proof.Machine.execJmp reg s
  | .cmp ra rb => Sys2Proof.Machine.execCmp ra rb s
  | .jeq reg => Sys2Proof.Machine.execJeq reg s
  | .jne reg => Sys2Proof.Machine.execJne reg s

end Sys2Proof.Machine
end

