-- ==== Sys2Proof/Machine/Step.lean ====
section
/-! DEFINITION. One fetch-decode-execute step (spec/40_cycle.md R67-R79). -/

namespace Sys2Proof.Machine

/-- One step. A core that is not Running has none (R67). A Running core decodes the bytes at `pc` (R68-R70) and runs the
instruction; a byte it needs that is not in memory raises OutOfBounds(Memory) with that byte's address (R37, R70, log 8), and
an unknown opcode byte is handled by policy (R69, R77). The order of the checks is that of R76. -/
def step (s : State) : Host.Outcome State Fault Refusal :=
  match s.status with
  | .idle => .fault (.notRunning .idle)
  | .halted => .fault (.notRunning .halted)
  | .faulted => .fault (.notRunning .faulted)
  | .running =>
    match decode s.fetchWindow with
    | .ok i _ => exec i s
    | .unknownOpcode op => unknownOpcodeStep op s
    | .truncated k => raise .outOfBoundsMemory (s.pc + k) s

/-- The state in which the next step runs the instruction of an opcode-table word: its bytes at `pc`, and the core
Running, as the host's `load` and `run()` leave it; a core that runs has no fault record (R30). DESIGN CHOICE (log 5). -/
def State.withFetchWord (s : State) (nbits w : Nat) : State :=
  { s.placeAtPc (tableWordBytes nbits w) with status := .running, fault := none }

end Sys2Proof.Machine
end

