-- ==== Sys2Proof/Machine/HostPort.lean ====
section
/-! DEFINITION. The host's operations on a core that is not Running: reset, memory port and inspection
(spec/20_memory.md R38-R41, spec/70_reset_and_hazards.md R115-R118).

The host's arguments are integers, of which the operations accept the legal ones (log 14). A failed operation is an
answer to the host and changes no state (R102). -/

namespace Sys2Proof.Machine

/-- Host operations happen only while the core is not Running (R41, R118). DESIGN CHOICE (log 9), safe: asked for during
a run, an operation answers `busy`. -/
def whenStopped {α : Type} (s : State) (r : Except HostError α) : Except HostError α :=
  match s.status with
  | .running => .error .busy
  | .idle => r
  | .halted => r
  | .faulted => r

/-- An integer in `0 .. MEM_SIZE-1` as an address (R38). -/
def addrOf? (c : Config) (x : Int) : Option Nat :=
  if 0 ≤ x ∧ x < (c.memSize : Int) then some x.toNat else none

/-- An integer in `0 .. 255` as a byte (R39). -/
def byteOf? (x : Int) : Option Byte :=
  if 0 ≤ x ∧ x ≤ 255 then some (BitVec.ofNat 8 x.toNat) else none

/-- All values as bytes, or the first that is none (R40). -/
def bytesOf : List Int → Except HostError (List Byte)
  | [] => .ok []
  | x :: xs =>
    match byteOf? x with
    | none => .error (.invalidValue x)
    | some b =>
      match bytesOf xs with
      | .ok bs => .ok (b :: bs)
      | .error e => .error e

/-- `read(address)` (R38): the byte; it changes no state. -/
def hostRead (address : Int) (s : State) : Except HostError Byte :=
  whenStopped s <|
    match addrOf? s.cfg address with
    | none => .error (.outOfBounds address)
    | some a => .ok (Memory.read s.cfg s.mem a)

/-- `write(address, value)` (R39): the address is checked before the value. -/
def hostWrite (address value : Int) (s : State) : Except HostError State :=
  whenStopped s <|
    match addrOf? s.cfg address with
    | none => .error (.outOfBounds address)
    | some a =>
      match byteOf? value with
      | none => .error (.invalidValue value)
      | some v => .ok { s with mem := Memory.write s.cfg s.mem a v }

/-- `load(bytes)` (R40): the image at address 0, all of it or nothing; nothing but memory changes. -/
def hostLoad (bytes : List Int) (s : State) : Except HostError State :=
  whenStopped s <|
    if s.cfg.memSize < bytes.length then .error (.outOfBounds bytes.length)
    else
      match bytesOf bytes with
      | .error e => .error e
      | .ok bs => .ok { s with mem := Memory.writeBytes s.cfg s.mem 0 bs }

/-- `reset()` (R115): every piece of state to its reset value; the only way out of Halted and Faulted.
DESIGN CHOICE (log 16), unsafe: every reset of one core gives the same REG_INIT and MEM_INIT, those of its
configuration. -/
def hostReset (s : State) : Except HostError State := whenStopped s (.ok (State.resetWith s.cfg))

/-- What the host sees of a core that is not Running (R118); memory is seen through `read`, the output stream always. -/
structure Inspection where
  regs : Vector Byte 8
  fl : Byte
  pc : Nat
  status : Status
  fault : Option FaultRecord
  deriving DecidableEq, Repr

/-- Inspection of `R`, `FL`, `pc`, `status` and `fault` (R118). -/
def hostInspect (s : State) : Except HostError Inspection :=
  whenStopped s (.ok ⟨s.regs, s.fl, s.pc, s.status, s.fault⟩)

end Sys2Proof.Machine
end

