-- ==== Sys2Proof/Machine/Loader.lean ====
section
/-! DEFINITION. The host-side loader of the textual program format (spec/30_encoding.md R65, R66).

The spec's scope leaves the loader out as an external collaborator (00_scope.md R3); its text format and its errors are
rules of the spec all the same, and are modelled beside the core. Text is the list of its characters (log 11). -/

namespace Sys2Proof.Machine

/-- The lines of a text, split at line feeds. -/
def splitLines : List Char → List (List Char)
  | [] => [[]]
  | c :: cs =>
    if c = '\n' then [] :: splitLines cs
    else
      match splitLines cs with
      | [] => [[c]]
      | l :: ls => (c :: l) :: ls

/-- Everything before the first `#` (R65). -/
def dropComment (line : List Char) : List Char := line.takeWhile fun c => c != '#'

/-- A line without leading and trailing white space (R65). -/
def trim (line : List Char) : List Char :=
  ((line.dropWhile Char.isWhitespace).reverse.dropWhile Char.isWhitespace).reverse

/-- The two characters of a binary literal (R65). -/
def isBinaryDigit (c : Char) : Bool := c == '0' || c == '1'

/-- The value of a binary literal, most significant digit first. -/
def binaryValue (digits : List Char) : Nat := digits.foldl (fun v c => 2 * v + if c = '1' then 1 else 0) 0

/-- One line: nothing if it is blank or a comment, its byte if it is a binary literal of at most 255; any other line
fails (R65, D24). -/
def parseLine (line : List Char) : Except HostError (Option Byte) :=
  let text := trim (dropComment line)
  if text.isEmpty then .ok none
  else if text.all isBinaryDigit then
    if binaryValue text ≤ 255 then .ok (some (BitVec.ofNat 8 (binaryValue text)))
    else .error (.invalidValue (binaryValue text))
  else .error (.malformedInstruction line)

/-- The bytes of a list of lines; the first line that fails fails the whole load (R65). -/
def parseLines : List (List Char) → Except HostError (List Byte)
  | [] => .ok []
  | l :: ls =>
    match parseLine l with
    | .error e => .error e
    | .ok none => parseLines ls
    | .ok (some b) =>
      match parseLines ls with
      | .error e => .error e
      | .ok bs => .ok (b :: bs)

/-- The image that a program text spells (R65). -/
def parseProgram (text : List Char) : Except HostError (List Byte) := parseLines (splitLines text)

/-- The loader: a missing source fails with SourceNotFound; otherwise the parsed sequence is passed to `load`. On any
failure there is no state, so no memory is written (R65, R104). -/
def loadProgram (name : String) (source : Option (List Char)) (s : State) : Except HostError State :=
  match source with
  | none => .error (.sourceNotFound name)
  | some text =>
    match parseProgram text with
    | .error e => .error e
    | .ok bs => hostLoad (bs.map fun b => (b.toNat : Int)) s

/-- The 8 binary digits of a byte, most significant first (R66). -/
def binaryDigits (b : Byte) : List Char :=
  [7, 6, 5, 4, 3, 2, 1, 0].map fun k => if b.getLsbD k then '1' else '0'

/-- An image as text: one line of 8 binary digits for each byte (R66). -/
def programText : List Byte → List Char
  | [] => []
  | b :: bs => binaryDigits b ++ '\n' :: programText bs

end Sys2Proof.Machine
end

