-- ==== Sys2Proof/Machine/Output.lean ====
section
/-! DEFINITION. The host's side of the output sink: decimal text (spec/60_exceptions.md R111). -/

namespace Sys2Proof.Machine

/-- The character of a decimal digit. -/
def digitChar (d : Nat) : Char := Char.ofNat (48 + d % 10)

/-- The decimal digits of a number below 1000, with no leading zeros; 0 is `0` (R111). -/
def decimalDigits (n : Nat) : List Char :=
  if n < 10 then [digitChar n]
  else if n < 100 then [digitChar (n / 10), digitChar n]
  else [digitChar (n / 100), digitChar (n / 10), digitChar n]

/-- One line of decimal text for each value, each followed by one line feed (R111, D21). -/
def renderOutput : List Byte → List Char
  | [] => []
  | v :: vs => decimalDigits v.toNat ++ '\n' :: renderOutput vs

end Sys2Proof.Machine
end

