-- ==== Sys2Proof/Machine/Assembler.lean ====
section
/-! DEFINITION. The assembler syntax that the spec fixes for its examples (spec/30_encoding.md R63, R64, D27).

It is notation, not hardware: a function from text to bytes by way of the encoder. There are no pseudo-instructions
(R64). What R63 leaves to its reader (white space, the form of a label, hexadecimal digits) is in log 12. -/

namespace Sys2Proof.Machine

/-- LDI's value as written: a number, or a label (R63). -/
inductive AsmValue where
  | number (v : Byte)
  | label (name : List Char)
  deriving DecidableEq, Repr

/-- An instruction as written: LDI's value may still be a label; every other instruction is its encoding's (R63). -/
inductive AsmInstr where
  | ldi (reg : Byte) (value : AsmValue)
  | plain (i : Instr)
  deriving DecidableEq, Repr

/-- `line ::= [label ":"] [instruction] ["#" comment]`, its comment dropped (R63). -/
structure AsmLine where
  label : Option (List Char)
  instr : Option AsmInstr
  deriving DecidableEq, Repr

/-- Why a text has no encoding. -/
inductive AsmError where
  /-- A line that the grammar of R63 does not have. -/
  | badLine (line : List Char)
  /-- A label used that no line defines. -/
  | unknownLabel (name : List Char)
  /-- A label defined twice. -/
  | duplicateLabel (name : List Char)
  /-- A label whose address is over 255, where R63 allows labels as LDI values of 0..255 only. -/
  | labelOutOfRange (name : List Char)
  deriving DecidableEq, Repr

/-- The value of a digit in bases up to 16. -/
def digitValue? (c : Char) : Option Nat :=
  if '0' ≤ c ∧ c ≤ '9' then some (c.toNat - 48)
  else if 'A' ≤ c ∧ c ≤ 'F' then some (c.toNat - 55)
  else if 'a' ≤ c ∧ c ≤ 'f' then some (c.toNat - 87)
  else none

/-- The value of digits in a base, after an accumulated value; none if one of them is no digit of the base. -/
def digitsValue? (base : Nat) : Nat → List Char → Option Nat
  | v, [] => some v
  | v, c :: cs =>
    match digitValue? c with
    | none => none
    | some d => if d < base then digitsValue? base (base * v + d) cs else none

/-- A number of 0..255 from at least one digit. -/
def byteLiteral? (base : Nat) (digits : List Char) : Option Byte :=
  match digits, digitsValue? base 0 digits with
  | [], _ => none
  | _ :: _, none => none
  | _ :: _, some v => if v ≤ 255 then some (BitVec.ofNat 8 v) else none

/-- `reg ::= ("R" | "r") digit0to7` (R63). -/
def asmReg? (cs : List Char) : Option Byte :=
  match cs with
  | [r, d] => if (r = 'R' ∨ r = 'r') ∧ '0' ≤ d ∧ d ≤ '7' then some (BitVec.ofNat 8 (d.toNat - 48)) else none
  | _ => none

/-- A label's form: a letter or underscore, then letters, digits and underscores. DESIGN CHOICE (log 12). -/
def isLabel (cs : List Char) : Bool :=
  match cs with
  | [] => false
  | c :: rest => (c.isAlpha || c == '_') && rest.all fun d => d.isAlphanum || d == '_'

/-- `value ::= decimal 0..255 | "0x" hex 00..FF | "0b" binary | label` (R63). -/
def asmValue? (cs : List Char) : Option AsmValue :=
  match cs with
  | '0' :: 'x' :: ds => if ds.length = 2 then (byteLiteral? 16 ds).map .number else none
  | '0' :: 'b' :: ds => (byteLiteral? 2 ds).map .number
  | _ =>
    match byteLiteral? 10 cs with
    | some v => some (.number v)
    | none => if isLabel cs then some (.label cs) else none

/-- The pieces of a list around a separator. -/
def splitOn (sep : Char) : List Char → List (List Char)
  | [] => [[]]
  | c :: cs =>
    if c = sep then [] :: splitOn sep cs
    else
      match splitOn sep cs with
      | [] => [[c]]
      | l :: ls => (c :: l) :: ls

/-- A one-register instruction from its operands. -/
def asmOneReg (mk : Byte → Instr) (operands : List (List Char)) : Option AsmInstr :=
  match operands with
  | [a] => (asmReg? a).map fun r => .plain (mk r)
  | _ => none

/-- A two-register instruction from its operands, in encoding order (R63). -/
def asmTwoReg (mk : Byte → Byte → Instr) (operands : List (List Char)) : Option AsmInstr :=
  match operands with
  | [a, b] =>
    match asmReg? a, asmReg? b with
    | some ra, some rb => some (.plain (mk ra rb))
    | _, _ => none
  | _ => none

/-- `"LDI" reg "," value` (R63). -/
def asmLdi (operands : List (List Char)) : Option AsmInstr :=
  match operands with
  | [a, b] =>
    match asmReg? a, asmValue? b with
    | some r, some v => some (.ldi r v)
    | _, _ => none
  | _ => none

/-- An instruction from trimmed text that is not empty (R63); mnemonics are upper case. -/
def asmInstr? (text : List Char) : Option AsmInstr :=
  let mnemonic := text.takeWhile fun c => !c.isWhitespace
  let rest := trim (text.dropWhile fun c => !c.isWhitespace)
  let operands := (splitOn ',' rest).map trim
  if mnemonic = ['H', 'A', 'L', 'T'] then (if rest.isEmpty then some (.plain .halt) else none)
  else if mnemonic = ['L', 'D', 'I'] then asmLdi operands
  else if mnemonic = ['P', 'R', 'N'] then asmOneReg .prn operands
  else if mnemonic = ['M', 'U', 'L'] then asmTwoReg .mul operands
  else if mnemonic = ['J', 'M', 'P'] then asmOneReg .jmp operands
  else if mnemonic = ['C', 'M', 'P'] then asmTwoReg .cmp operands
  else if mnemonic = ['J', 'E', 'Q'] then asmOneReg .jeq operands
  else if mnemonic = ['J', 'N', 'E'] then asmOneReg .jne operands
  else none

/-- The instruction part of a line, which may be empty. -/
def asmBody (label : Option (List Char)) (text : List Char) : Option AsmLine :=
  if text.isEmpty then some ⟨label, none⟩ else (asmInstr? text).map fun i => ⟨label, some i⟩

/-- One line of assembler text (R63). -/
def asmLine? (line : List Char) : Option AsmLine :=
  match splitOn ':' (dropComment line) with
  | [body] => asmBody none (trim body)
  | [label, body] => if isLabel (trim label) then asmBody (some (trim label)) (trim body) else none
  | _ => none

/-- The lines of a text, or the first that the grammar does not have. -/
def asmLines : List (List Char) → Except AsmError (List AsmLine)
  | [] => .ok []
  | l :: ls =>
    match asmLine? l with
    | none => .error (.badLine l)
    | some a =>
      match asmLines ls with
      | .error e => .error e
      | .ok rest => .ok (a :: rest)

/-- The bytes an instruction as written takes: one of its encoding's length (R54, R63). -/
def AsmInstr.size : AsmInstr → Nat
  | .ldi reg _ => (Instr.ldi reg 0).size
  | .plain i => i.size

/-- The labels of a program, each standing for the address of the next instruction (R63). DESIGN CHOICE (log 12), unsafe:
a label with no instruction after it stands for the address just past the image. -/
def labelTable : Nat → List AsmLine → List (List Char × Nat)
  | _, [] => []
  | a, ⟨label, instr⟩ :: ls =>
    let rest := labelTable (a + (instr.map AsmInstr.size).getD 0) ls
    match label with
    | none => rest
    | some n => (n, a) :: rest

/-- The first label defined twice. -/
def duplicateLabel? : List (List Char × Nat) → Option (List Char)
  | [] => none
  | (n, _) :: t => if t.any fun e => e.1 == n then some n else duplicateLabel? t

/-- The address of a label, as an LDI value (R63). -/
def labelByte (table : List (List Char × Nat)) (name : List Char) : Except AsmError Byte :=
  match table.find? fun e => e.1 == name with
  | none => .error (.unknownLabel name)
  | some (_, a) => if a ≤ 255 then .ok (BitVec.ofNat 8 a) else .error (.labelOutOfRange name)

/-- The encoding of an instruction as written (R63). -/
def AsmInstr.encode (table : List (List Char × Nat)) : AsmInstr → Except AsmError (List Byte)
  | .ldi reg (.number v) => .ok (Sys2Proof.encode (.ldi reg v))
  | .ldi reg (.label n) =>
    match labelByte table n with
    | .error e => .error e
    | .ok v => .ok (Sys2Proof.encode (.ldi reg v))
  | .plain i => .ok (Sys2Proof.encode i)

/-- The bytes of all lines, in order. -/
def encodeLines (table : List (List Char × Nat)) : List AsmLine → Except AsmError (List Byte)
  | [] => .ok []
  | ⟨_, none⟩ :: ls => encodeLines table ls
  | ⟨_, some i⟩ :: ls =>
    match i.encode table, encodeLines table ls with
    | .error e, _ => .error e
    | .ok _, .error e => .error e
    | .ok bs, .ok rest => .ok (bs ++ rest)

/-- The image of an assembler text placed at address 0 (R63). -/
def assemble (text : List Char) : Except AsmError (List Byte) :=
  match asmLines (splitLines text) with
  | .error e => .error e
  | .ok lines =>
    let table := labelTable 0 lines
    match duplicateLabel? table with
    | some n => .error (.duplicateLabel n)
    | none => encodeLines table lines

/-- A register operand as the grammar writes it. -/
def regText (b : Byte) : List Char := 'R' :: decimalDigits b.toNat

/-- An instruction as the grammar of R63 writes it, numbers in decimal. -/
def instrText : Instr → List Char
  | .halt => ['H', 'A', 'L', 'T']
  | .ldi reg imm => ['L', 'D', 'I', ' '] ++ regText reg ++ [',', ' '] ++ decimalDigits imm.toNat
  | .prn reg => ['P', 'R', 'N', ' '] ++ regText reg
  | .mul ra rb => ['M', 'U', 'L', ' '] ++ regText ra ++ [',', ' '] ++ regText rb
  | .jmp reg => ['J', 'M', 'P', ' '] ++ regText reg
  | .cmp ra rb => ['C', 'M', 'P', ' '] ++ regText ra ++ [',', ' '] ++ regText rb
  | .jeq reg => ['J', 'E', 'Q', ' '] ++ regText reg
  | .jne reg => ['J', 'N', 'E', ' '] ++ regText reg

end Sys2Proof.Machine
end

