-- ==== Sys2Proof/Machine/HostRun.lean ====
section
/-! DEFINITION. `run()` and the boot sequence (spec/40_cycle.md R78, spec/70_reset_and_hazards.md R117, R119, R124).

A run has no step limit; the model's runner has fuel, and a run that uses it up has no end state (R124, log 10). -/

namespace Sys2Proof.Machine

/-- How the runner's loop ended. -/
inductive RunResult where
  /-- `run()` returned, the core in this state: the host sees its status and fault record (R119). -/
  | returned (s : State)
  /-- The fuel ran out in this state, with the core still Running: no end state of the run (R124). -/
  | outOfFuel (s : State)
  deriving DecidableEq, Repr

/-- `while status = Running: Step()` (R78), for at most `fuel` steps. -/
def runLoop : Nat → State → RunResult
  | 0, s => if s.status = .running then .outOfFuel s else .returned s
  | fuel + 1, s =>
    match step s with
    | .next s' => runLoop fuel s'
    | .fault _ => .returned s
    | .refused _ => .returned s

/-- `run()` (R78): from Idle the core becomes Running and steps until it is not; from Halted or Faulted it returns at
once with no step and no change. The host cannot call it on a Running core (R118, log 9). -/
def hostRun (fuel : Nat) (s : State) : Except HostError RunResult :=
  match s.status with
  | .idle => .ok (runLoop fuel (s.setStatus .running))
  | .halted => .ok (.returned s)
  | .faulted => .ok (.returned s)
  | .running => .error .busy

/-- The boot sequence of R117 on a newly constructed core: reset, `load(image)`, `run()`. -/
def boot (c : Config) (image : List Int) (fuel : Nat) : Except HostError RunResult :=
  match hostLoad image (State.resetWith c) with
  | .error e => .error e
  | .ok s => hostRun fuel s

end Sys2Proof.Machine
end

