-- ==== Sys2Proof/Safety.lean ====
section
/-! DEFINITION. The terms claims use: the invariant of the core, and the spec's own account of a whole step (R79) and of
its faults (R76), written out from the spec's text without the decoder, the operand forms or the meanings. -/

namespace Sys2Proof.Machine

/-- The opcode bytes of `OPMAP` (R58, R79). -/
def opmapBytes : List Byte := [0x01#8, 0x82#8, 0x47#8, 0xA2#8, 0x54#8, 0xA7#8, 0x55#8, 0x56#8]

/-- What a fault record can say (R98): an unknown opcode byte, an address outside memory, or an operand byte 8..255. -/
def FaultRecord.plausible (c : Config) (f : FaultRecord) : Prop :=
  match f.kind with
  | .unknownOpcode => f.detail < 256 ∧ BitVec.ofNat 8 f.detail ∉ opmapBytes
  | .outOfBoundsMemory => c.memSize ≤ f.detail
  | .outOfBoundsRegister => 8 ≤ f.detail ∧ f.detail < 256

/-- The invariant of the core. -/
structure State.Inv (s : State) : Prop where
  /-- `MEM_SIZE >= 1` (R5). -/
  cfg_wf : s.cfg.wf
  /-- Memory is in canonical form, with no cell outside the address space (R33). -/
  mem_wf : Memory.wf s.cfg s.mem = true
  /-- "PC always in [0, memory size)" (R19). -/
  pc_lt : s.pc < s.cfg.memSize
  /-- FL only ever holds one of 0, 0b001, 0b010 and 0b100 (R24). -/
  fl_legal : s.fl = 0#8 ∨ s.fl = 1#8 ∨ s.fl = 2#8 ∨ s.fl = 4#8
  /-- The fault record is empty exactly while the core is not Faulted (R30). -/
  fault_none_iff : s.fault = none ↔ s.status ≠ .faulted
  /-- `pc` still holds the address of the instruction that the record names (R75). -/
  fault_pc : ∀ f, s.fault = some f → f.pc = s.pc
  /-- The record's detail fits its kind (R98). -/
  fault_plausible : ∀ f, s.fault = some f → f.plausible s.cfg

/-- Memory holds these bytes from `pc` on (R43, R55). -/
def State.holdsAtPc (s : State) (bytes : List Byte) : Prop :=
  ∀ k, k < bytes.length → s.memRead (s.pc + k) = bytes[k]?

/-- The same state of a core built with another REG_INIT (R16). -/
def State.withRegInit (s : State) (regInit : Vector Byte 7) : State :=
  { s with cfg := { s.cfg with regInit := regInit } }

/-- A step that changes neither configuration, registers, FL, `pc`, memory nor output (R75). -/
def SameButStatus (s t : State) : Prop :=
  t.cfg = s.cfg ∧ (∀ r, t.getReg r = s.getReg r) ∧ t.fl = s.fl ∧ t.pc = s.pc ∧ (∀ a, t.memRead a = s.memRead a) ∧
    t.out = s.out

/-- `Step()` of R79, line by line, on a Running core; `R[b]` is read and written for a byte already checked to be
below 8. R79 says `no fault since a < MEM_SIZE`; the first line is R37's answer where that fails (DEDUCED, log 8, safe). -/
def stepPseudocode (s : State) : State :=
  let a := s.pc
  let size := s.cfg.memSize
  let op := Memory.read s.cfg s.mem a
  let b1 := Memory.read s.cfg s.mem (a + 1)
  let b2 := Memory.read s.cfg s.mem (a + 2)
  let k := if op = 0x01#8 then 0 else if op ∈ [0x47#8, 0x54#8, 0x55#8, 0x56#8] then 1 else 2
  let r1 := (s.regs[b1.toNat]?).getD 0#8
  let r2 := (s.regs[b2.toNat]?).getD 0#8
  if size ≤ a then s.raised .outOfBoundsMemory a
  else if op ∉ opmapBytes then
    if s.cfg.unknownOpcode = .fault then s.raised .unknownOpcode op.toNat
    else if size ≤ a + 1 then s.raised .outOfBoundsMemory (a + 1)
    else { s with pc := a + 1 }
  else if 1 ≤ k ∧ size ≤ a + 1 then s.raised .outOfBoundsMemory (a + 1)
  else if k = 2 ∧ size ≤ a + 2 then s.raised .outOfBoundsMemory (a + 2)
  else if op ≠ 0x01#8 ∧ 8 ≤ b1.toNat then s.raised .outOfBoundsRegister b1.toNat
  else if op ∈ [0xA2#8, 0xA7#8] ∧ 8 ≤ b2.toNat then s.raised .outOfBoundsRegister b2.toNat
  else if op = 0x01#8 then { s with status := .halted }
  else
    let next :=
      if op = 0x82#8 then a + 3
      else if op = 0x47#8 then a + 2
      else if op = 0xA2#8 then a + 3
      else if op = 0x54#8 then r1.toNat
      else if op = 0xA7#8 then a + 3
      else if op = 0x55#8 then (if s.fl[0] = true then r1.toNat else a + 2)
      else (if s.fl[1] = true ∨ s.fl[2] = true then r1.toNat else a + 2)
    if size ≤ next then s.raised .outOfBoundsMemory next
    else
      { s with
        regs :=
          if op = 0x82#8 then s.regs.setIfInBounds b1.toNat b2
          else if op = 0xA2#8 then s.regs.setIfInBounds b1.toNat (BitVec.ofNat 8 (r1.toNat * r2.toNat % 256))
          else s.regs
        out := if op = 0x47#8 then s.out ++ [r1] else s.out
        fl :=
          if op = 0xA7#8 then (if r1 = r2 then 0b001#8 else if r1.toNat < r2.toNat then 0b010#8 else 0b100#8)
          else s.fl
        pc := next }

/-- The next `pc` that a known opcode asks for, if it asks for one (R20, R73). -/
def nextPcAskedFor (s : State) (op b1 : Byte) : Option Nat :=
  let target := ((s.regs[b1.toNat]?).getD 0#8).toNat
  if op = 0x01#8 then none
  else if op = 0x54#8 then some target
  else if op = 0x55#8 then some (if s.fl[0] = true then target else s.pc + 2)
  else if op = 0x56#8 then some (if s.fl[1] = true ∨ s.fl[2] = true then target else s.pc + 2)
  else if op = 0x47#8 then some (s.pc + 2)
  else some (s.pc + 3)

/-- The faults that apply to a known opcode with these operand bytes, in the order of R76: an operand byte outside
memory, a register operand of 8 or more (where its byte is in memory), a next `pc` outside memory. -/
def faultsOfKnownOpcode (s : State) (op b1 b2 : Byte) : List FaultRecord :=
  (if op ≠ 0x01#8 ∧ s.cfg.memSize ≤ s.pc + 1 then [⟨.outOfBoundsMemory, s.pc, s.pc + 1⟩] else [])
    ++ (if op ∈ [0x82#8, 0xA2#8, 0xA7#8] ∧ s.cfg.memSize ≤ s.pc + 2 then [⟨.outOfBoundsMemory, s.pc, s.pc + 2⟩] else [])
    ++ (if op ≠ 0x01#8 ∧ s.pc + 1 < s.cfg.memSize ∧ 8 ≤ b1.toNat then [⟨.outOfBoundsRegister, s.pc, b1.toNat⟩] else [])
    ++ (if op ∈ [0xA2#8, 0xA7#8] ∧ s.pc + 2 < s.cfg.memSize ∧ 8 ≤ b2.toNat then
          [⟨.outOfBoundsRegister, s.pc, b2.toNat⟩] else [])
    ++ (match nextPcAskedFor s op b1 with
        | none => []
        | some n => if s.cfg.memSize ≤ n then [⟨.outOfBoundsMemory, s.pc, n⟩] else [])

/-- The faults that apply to a step of a Running core, in the order of R76; the step reports the first. -/
def faultsThatApply (s : State) : List FaultRecord :=
  let op := Memory.read s.cfg s.mem s.pc
  if op ∉ opmapBytes then
    match s.cfg.unknownOpcode with
    | .fault => [⟨.unknownOpcode, s.pc, op.toNat⟩]
    | .skip => if s.cfg.memSize ≤ s.pc + 1 then [⟨.outOfBoundsMemory, s.pc, s.pc + 1⟩] else []
  else
    faultsOfKnownOpcode s op (Memory.read s.cfg s.mem (s.pc + 1)) (Memory.read s.cfg s.mem (s.pc + 2))

end Sys2Proof.Machine
end

