-- ==== Sys2Proof/Certificates/Slice0/Obligations.lean ====
section
/-! DEFINITION. The statements for the provers, from the numbered rules of spec/. Each holds for every configuration
(MEM_SIZE, policy, REG_INIT, MEM_INIT) unless it says otherwise. -/

open Sys2Proof Sys2Proof.Machine

/-! ### What each instruction does (R72, R80-R96): `exec` at `pc = a` -/

/-- HALT completes in every state: only the status changes, to Halted (R80). -/
def Obligations.HaltStopsExecution : Prop :=
  ∀ s : State, exec .halt s = .next { s with status := .halted }

/-- LDI on every operand byte: the register the byte names gets the immediate and `pc` advances by 3; a byte of 8 or more
and a next `pc` outside memory raise OutOfBounds instead, in that order (R81). -/
def Obligations.LdiWritesImmediate : Prop :=
  ∀ (s : State) (b imm : Byte),
    (∀ r : Reg, b.toNat = r.val → s.pc + 3 < s.cfg.memSize →
      exec (.ldi b imm) s = .next { s with regs := s.regs.set r.val imm, pc := s.pc + 3 }) ∧
    (8 ≤ b.toNat → exec (.ldi b imm) s = .next (s.raised .outOfBoundsRegister b.toNat)) ∧
    (b.toNat < 8 → s.cfg.memSize ≤ s.pc + 3 →
      exec (.ldi b imm) s = .next (s.raised .outOfBoundsMemory (s.pc + 3)))

/-- PRN on every operand byte: the value of the register the byte names is appended to the output and `pc` advances by
2, or a fault is raised and nothing is emitted (R82). -/
def Obligations.PrnEmitsRegister : Prop :=
  ∀ (s : State) (b : Byte),
    (∀ r : Reg, b.toNat = r.val → s.pc + 2 < s.cfg.memSize →
      exec (.prn b) s = .next { s with out := s.out ++ [s.getReg r], pc := s.pc + 2 }) ∧
    (8 ≤ b.toNat → exec (.prn b) s = .next (s.raised .outOfBoundsRegister b.toNat)) ∧
    (b.toNat < 8 → s.cfg.memSize ≤ s.pc + 2 →
      exec (.prn b) s = .next (s.raised .outOfBoundsMemory (s.pc + 2)))

/-- MUL on every pair of operand bytes: the product modulo 256 goes to the first register, both operands as they were
before, the same register twice included; the first operand byte is checked before the second (R90). -/
def Obligations.MulWritesProduct : Prop :=
  ∀ (s : State) (b1 b2 : Byte),
    (∀ ra rb : Reg, b1.toNat = ra.val → b2.toNat = rb.val → s.pc + 3 < s.cfg.memSize →
      exec (.mul b1 b2) s =
        .next { s with
          regs := s.regs.set ra.val (BitVec.ofNat 8 ((s.getReg ra).toNat * (s.getReg rb).toNat % 256))
          pc := s.pc + 3 }) ∧
    (8 ≤ b1.toNat → exec (.mul b1 b2) s = .next (s.raised .outOfBoundsRegister b1.toNat)) ∧
    (b1.toNat < 8 → 8 ≤ b2.toNat → exec (.mul b1 b2) s = .next (s.raised .outOfBoundsRegister b2.toNat)) ∧
    (b1.toNat < 8 → b2.toNat < 8 → s.cfg.memSize ≤ s.pc + 3 →
      exec (.mul b1 b2) s = .next (s.raised .outOfBoundsMemory (s.pc + 3)))

/-- JMP on every operand byte: `pc` becomes the register's value and nothing else changes (R94). -/
def Obligations.JmpGoesToRegister : Prop :=
  ∀ (s : State) (b : Byte),
    (∀ r : Reg, b.toNat = r.val → (s.getReg r).toNat < s.cfg.memSize →
      exec (.jmp b) s = .next { s with pc := (s.getReg r).toNat }) ∧
    (8 ≤ b.toNat → exec (.jmp b) s = .next (s.raised .outOfBoundsRegister b.toNat)) ∧
    (∀ r : Reg, b.toNat = r.val → s.cfg.memSize ≤ (s.getReg r).toNat →
      exec (.jmp b) s = .next (s.raised .outOfBoundsMemory (s.getReg r).toNat))

/-- CMP on every pair of operand bytes: FL becomes 0b001, 0b010 or 0b100 as the first register is equal to, less than or
greater than the second, unsigned, and no register changes (R92). -/
def Obligations.CmpWritesComparison : Prop :=
  ∀ (s : State) (b1 b2 : Byte),
    (∀ ra rb : Reg, b1.toNat = ra.val → b2.toNat = rb.val → s.pc + 3 < s.cfg.memSize →
      exec (.cmp b1 b2) s =
        .next { s with
          fl :=
            if s.getReg ra = s.getReg rb then 0b001#8
            else if (s.getReg ra).toNat < (s.getReg rb).toNat then 0b010#8
            else 0b100#8
          pc := s.pc + 3 }) ∧
    (8 ≤ b1.toNat → exec (.cmp b1 b2) s = .next (s.raised .outOfBoundsRegister b1.toNat)) ∧
    (b1.toNat < 8 → 8 ≤ b2.toNat → exec (.cmp b1 b2) s = .next (s.raised .outOfBoundsRegister b2.toNat)) ∧
    (b1.toNat < 8 → b2.toNat < 8 → s.cfg.memSize ≤ s.pc + 3 →
      exec (.cmp b1 b2) s = .next (s.raised .outOfBoundsMemory (s.pc + 3)))

/-- JEQ on every operand byte and every FL: taken to the register's value if bit 0 of FL is set, else past the two bytes;
the operand byte is checked whether or not it is taken (R95). -/
def Obligations.JeqJumpsOnEqual : Prop :=
  ∀ (s : State) (b : Byte),
    (∀ r : Reg, b.toNat = r.val → s.fl[0] = true → (s.getReg r).toNat < s.cfg.memSize →
      exec (.jeq b) s = .next { s with pc := (s.getReg r).toNat }) ∧
    (b.toNat < 8 → s.fl[0] = false → s.pc + 2 < s.cfg.memSize →
      exec (.jeq b) s = .next { s with pc := s.pc + 2 }) ∧
    (8 ≤ b.toNat → exec (.jeq b) s = .next (s.raised .outOfBoundsRegister b.toNat)) ∧
    (∀ r : Reg, b.toNat = r.val → s.fl[0] = true → s.cfg.memSize ≤ (s.getReg r).toNat →
      exec (.jeq b) s = .next (s.raised .outOfBoundsMemory (s.getReg r).toNat)) ∧
    (b.toNat < 8 → s.fl[0] = false → s.cfg.memSize ≤ s.pc + 2 →
      exec (.jeq b) s = .next (s.raised .outOfBoundsMemory (s.pc + 2)))

/-- JNE on every operand byte and every FL: taken if bit 1 or bit 2 of FL is set, so not taken when FL is 0 (R96). -/
def Obligations.JneJumpsOnLessOrGreater : Prop :=
  ∀ (s : State) (b : Byte),
    (∀ r : Reg, b.toNat = r.val → (s.fl[1] = true ∨ s.fl[2] = true) →
      (s.getReg r).toNat < s.cfg.memSize → exec (.jne b) s = .next { s with pc := (s.getReg r).toNat }) ∧
    (b.toNat < 8 → s.fl[1] = false → s.fl[2] = false → s.pc + 2 < s.cfg.memSize →
      exec (.jne b) s = .next { s with pc := s.pc + 2 }) ∧
    (8 ≤ b.toNat → exec (.jne b) s = .next (s.raised .outOfBoundsRegister b.toNat)) ∧
    (∀ r : Reg, b.toNat = r.val → (s.fl[1] = true ∨ s.fl[2] = true) →
      s.cfg.memSize ≤ (s.getReg r).toNat →
      exec (.jne b) s = .next (s.raised .outOfBoundsMemory (s.getReg r).toNat)) ∧
    (b.toNat < 8 → s.fl[1] = false → s.fl[2] = false → s.cfg.memSize ≤ s.pc + 2 →
      exec (.jne b) s = .next (s.raised .outOfBoundsMemory (s.pc + 2)))

/-! ### The whole rule of each instruction: a step from the bytes in memory -/

/-- R80: a step at the byte 0x01, the last address included; after it the core has no step, and the run loop returns the
Halted core. -/
def Obligations.StepOfHaltBytes : Prop :=
  ∀ s : State, s.status = .running → s.memRead s.pc = some 0b00000001#8 →
    step s = .next { s with status := .halted } ∧ (∀ t, step { s with status := .halted } ≠ .next t) ∧
      ∀ fuel, runLoop (fuel + 1) s = .returned { s with status := .halted }

/-- R81: a step at the byte 0x82, with each of its faults, in the order of R76. -/
def Obligations.StepOfLdiBytes : Prop :=
  ∀ s : State, s.status = .running → s.memRead s.pc = some 0b10000010#8 →
    (s.memRead (s.pc + 1) = none → step s = .next (s.raised .outOfBoundsMemory (s.pc + 1))) ∧
    ∀ b1, s.memRead (s.pc + 1) = some b1 →
      (s.memRead (s.pc + 2) = none → step s = .next (s.raised .outOfBoundsMemory (s.pc + 2))) ∧
      ∀ b2, s.memRead (s.pc + 2) = some b2 →
        (8 ≤ b1.toNat → step s = .next (s.raised .outOfBoundsRegister b1.toNat)) ∧
        ∀ r : Reg, b1.toNat = r.val →
          (s.cfg.memSize ≤ s.pc + 3 → step s = .next (s.raised .outOfBoundsMemory (s.pc + 3))) ∧
          (s.pc + 3 < s.cfg.memSize → step s = .next { s with regs := s.regs.set r.val b2, pc := s.pc + 3 })

/-- R82: a step at the byte 0x47, with each of its faults, in the order of R76. -/
def Obligations.StepOfPrnBytes : Prop :=
  ∀ s : State, s.status = .running → s.memRead s.pc = some 0b01000111#8 →
    (s.memRead (s.pc + 1) = none → step s = .next (s.raised .outOfBoundsMemory (s.pc + 1))) ∧
    ∀ b1, s.memRead (s.pc + 1) = some b1 →
      (8 ≤ b1.toNat → step s = .next (s.raised .outOfBoundsRegister b1.toNat)) ∧
      ∀ r : Reg, b1.toNat = r.val →
        (s.cfg.memSize ≤ s.pc + 2 → step s = .next (s.raised .outOfBoundsMemory (s.pc + 2))) ∧
        (s.pc + 2 < s.cfg.memSize → step s = .next { s with out := s.out ++ [s.getReg r], pc := s.pc + 2 })

/-- R90: a step at the byte 0xA2, with each of its faults, in the order of R76. -/
def Obligations.StepOfMulBytes : Prop :=
  ∀ s : State, s.status = .running → s.memRead s.pc = some 0b10100010#8 →
    (s.memRead (s.pc + 1) = none → step s = .next (s.raised .outOfBoundsMemory (s.pc + 1))) ∧
    ∀ b1, s.memRead (s.pc + 1) = some b1 →
      (s.memRead (s.pc + 2) = none → step s = .next (s.raised .outOfBoundsMemory (s.pc + 2))) ∧
      ∀ b2, s.memRead (s.pc + 2) = some b2 →
        (8 ≤ b1.toNat → step s = .next (s.raised .outOfBoundsRegister b1.toNat)) ∧
        (b1.toNat < 8 → 8 ≤ b2.toNat → step s = .next (s.raised .outOfBoundsRegister b2.toNat)) ∧
        ∀ ra rb : Reg, b1.toNat = ra.val → b2.toNat = rb.val →
          (s.cfg.memSize ≤ s.pc + 3 → step s = .next (s.raised .outOfBoundsMemory (s.pc + 3))) ∧
          (s.pc + 3 < s.cfg.memSize →
            step s =
              .next { s with
                regs := s.regs.set ra.val (BitVec.ofNat 8 ((s.getReg ra).toNat * (s.getReg rb).toNat % 256))
                pc := s.pc + 3 })

/-- R94: a step at the byte 0x54, with each of its faults, in the order of R76. -/
def Obligations.StepOfJmpBytes : Prop :=
  ∀ s : State, s.status = .running → s.memRead s.pc = some 0b01010100#8 →
    (s.memRead (s.pc + 1) = none → step s = .next (s.raised .outOfBoundsMemory (s.pc + 1))) ∧
    ∀ b1, s.memRead (s.pc + 1) = some b1 →
      (8 ≤ b1.toNat → step s = .next (s.raised .outOfBoundsRegister b1.toNat)) ∧
      ∀ r : Reg, b1.toNat = r.val →
        (s.cfg.memSize ≤ (s.getReg r).toNat →
          step s = .next (s.raised .outOfBoundsMemory (s.getReg r).toNat)) ∧
        ((s.getReg r).toNat < s.cfg.memSize → step s = .next { s with pc := (s.getReg r).toNat })

/-- R92: a step at the byte 0xA7, with each of its faults, in the order of R76; FL keeps the result until the next CMP. -/
def Obligations.StepOfCmpBytes : Prop :=
  ∀ s : State, s.status = .running → s.memRead s.pc = some 0b10100111#8 →
    (s.memRead (s.pc + 1) = none → step s = .next (s.raised .outOfBoundsMemory (s.pc + 1))) ∧
    ∀ b1, s.memRead (s.pc + 1) = some b1 →
      (s.memRead (s.pc + 2) = none → step s = .next (s.raised .outOfBoundsMemory (s.pc + 2))) ∧
      ∀ b2, s.memRead (s.pc + 2) = some b2 →
        (8 ≤ b1.toNat → step s = .next (s.raised .outOfBoundsRegister b1.toNat)) ∧
        (b1.toNat < 8 → 8 ≤ b2.toNat → step s = .next (s.raised .outOfBoundsRegister b2.toNat)) ∧
        ∀ ra rb : Reg, b1.toNat = ra.val → b2.toNat = rb.val →
          (s.cfg.memSize ≤ s.pc + 3 → step s = .next (s.raised .outOfBoundsMemory (s.pc + 3))) ∧
          (s.pc + 3 < s.cfg.memSize →
            (s.getReg ra = s.getReg rb → step s = .next { s with fl := 0b001#8, pc := s.pc + 3 }) ∧
            ((s.getReg ra).toNat < (s.getReg rb).toNat → step s = .next { s with fl := 0b010#8, pc := s.pc + 3 }) ∧
            ((s.getReg rb).toNat < (s.getReg ra).toNat → step s = .next { s with fl := 0b100#8, pc := s.pc + 3 }) ∧
            ∀ (t u : State) (i : Instr), step s = .next t → (∀ x y, i ≠ .cmp x y) → exec i t = .next u → u.fl = t.fl)

/-- R95: a step at the byte 0x55, with each of its faults, in the order of R76; with the flags of a comparison, the jump
is taken iff the compared values are equal. -/
def Obligations.StepOfJeqBytes : Prop :=
  ∀ s : State, s.status = .running → s.memRead s.pc = some 0b01010101#8 →
    (s.memRead (s.pc + 1) = none → step s = .next (s.raised .outOfBoundsMemory (s.pc + 1))) ∧
    ∀ b1, s.memRead (s.pc + 1) = some b1 →
      (8 ≤ b1.toNat → step s = .next (s.raised .outOfBoundsRegister b1.toNat)) ∧
      ∀ r : Reg, b1.toNat = r.val →
        ∀ next, next = (if s.fl[0] = true then (s.getReg r).toNat else s.pc + 2) →
          (s.cfg.memSize ≤ next → step s = .next (s.raised .outOfBoundsMemory next)) ∧
          (next < s.cfg.memSize → step s = .next { s with pc := next }) ∧
          ∀ x y : Byte, s.fl = compareFlags x y → next = if x = y then (s.getReg r).toNat else s.pc + 2

/-- R96: a step at the byte 0x56, with each of its faults, in the order of R76; with the flags of a comparison, the jump
is taken iff the compared values differ. -/
def Obligations.StepOfJneBytes : Prop :=
  ∀ s : State, s.status = .running → s.memRead s.pc = some 0b01010110#8 →
    (s.memRead (s.pc + 1) = none → step s = .next (s.raised .outOfBoundsMemory (s.pc + 1))) ∧
    ∀ b1, s.memRead (s.pc + 1) = some b1 →
      (8 ≤ b1.toNat → step s = .next (s.raised .outOfBoundsRegister b1.toNat)) ∧
      ∀ r : Reg, b1.toNat = r.val →
        ∀ next, next = (if s.fl[1] = true ∨ s.fl[2] = true then (s.getReg r).toNat else s.pc + 2) →
          (s.cfg.memSize ≤ next → step s = .next (s.raised .outOfBoundsMemory next)) ∧
          (next < s.cfg.memSize → step s = .next { s with pc := next }) ∧
          ∀ x y : Byte, s.fl = compareFlags x y → next = if x = y then s.pc + 2 else (s.getReg r).toNat

/-! ### What an instruction leaves unchanged (R13, R25, R31, R35) -/

/-- LDI and MUL change no register but the one their first operand byte names, no flag, no memory byte, no output and no
configuration; status and fault record change only if the instruction raises a fault. -/
def Obligations.LdiAndMulFrame : Prop :=
  ∀ (i : Instr) (b x : Byte), i = .ldi b x ∨ i = .mul b x →
    ∀ s t : State, exec i s = .next t →
      (∀ r : Reg, r.val ≠ b.toNat → t.getReg r = s.getReg r) ∧ t.fl = s.fl ∧ (∀ a, t.memRead a = s.memRead a) ∧
      t.out = s.out ∧ t.cfg = s.cfg ∧
      ((t.status = s.status ∧ t.fault = s.fault) ∨ ∃ kind detail, t = s.raised kind detail)

/-- CMP and PRN change no register, no memory byte and no configuration; CMP changes no output and PRN no flag; status
and fault record change only if the instruction raises a fault. -/
def Obligations.CmpAndPrnFrame : Prop :=
  ∀ (i : Instr) (b x : Byte), i = .cmp b x ∨ i = .prn b →
    ∀ s t : State, exec i s = .next t →
      (∀ r : Reg, t.getReg r = s.getReg r) ∧ (∀ a, t.memRead a = s.memRead a) ∧ t.cfg = s.cfg ∧
      (i = .cmp b x → t.out = s.out) ∧ (i = .prn b → t.fl = s.fl) ∧
      ((t.status = s.status ∧ t.fault = s.fault) ∨ ∃ kind detail, t = s.raised kind detail)

/-- HALT, JMP, JEQ and JNE change no register, no flag, no memory byte, no output and no configuration. HALT changes the
status alone and not `pc`; a jump changes `pc` alone, or raises a fault. -/
def Obligations.HaltAndJumpsFrame : Prop :=
  ∀ (i : Instr) (b : Byte), i = .halt ∨ i = .jmp b ∨ i = .jeq b ∨ i = .jne b →
    ∀ s t : State, exec i s = .next t →
      (∀ r : Reg, t.getReg r = s.getReg r) ∧ t.fl = s.fl ∧ (∀ a, t.memRead a = s.memRead a) ∧ t.out = s.out ∧
      t.cfg = s.cfg ∧
      (i = .halt → t.pc = s.pc ∧ t.fault = s.fault) ∧
      (i ≠ .halt → (t.status = s.status ∧ t.fault = s.fault) ∨ ∃ kind detail, t = s.raised kind detail)

/-! ### Encoding (R53-R60) -/

/-- R58: each opcode byte, written out in binary, selects its row for every value of the operand bytes, and leaves the
bytes after the instruction. -/
def Obligations.OpcodeMapSelectsInstruction : Prop :=
  ∀ (b1 b2 : Byte) (rest : List Byte),
    decode (0b00000001#8 :: rest) = .ok .halt rest ∧
    decode (0b10000010#8 :: b1 :: b2 :: rest) = .ok (.ldi b1 b2) rest ∧
    decode (0b01000111#8 :: b1 :: rest) = .ok (.prn b1) rest ∧
    decode (0b10100010#8 :: b1 :: b2 :: rest) = .ok (.mul b1 b2) rest ∧
    decode (0b01010100#8 :: b1 :: rest) = .ok (.jmp b1) rest ∧
    decode (0b10100111#8 :: b1 :: b2 :: rest) = .ok (.cmp b1 b2) rest ∧
    decode (0b01010101#8 :: b1 :: rest) = .ok (.jeq b1) rest ∧
    decode (0b01010110#8 :: b1 :: rest) = .ok (.jne b1) rest

/-- Decoding an encoding gives the instruction back, with every operand byte and whatever follows. -/
def Obligations.DecodeOfEncodeIsIdentity : Prop :=
  ∀ (i : Instr) (rest : List Byte), decode (encode i ++ rest) = .ok i rest

/-- Each decoded instruction has one encoding, which the bytes read are. -/
def Obligations.DecodedBytesAreTheEncoding : Prop :=
  ∀ (bytes rest : List Byte) (i : Instr), decode bytes = .ok i rest → bytes = encode i ++ rest

/-- The decoder answers UnknownOpcode exactly for the 248 opcode bytes outside the map, whatever follows (R60). -/
def Obligations.UnknownOpcodeBytesAreRejected : Prop :=
  (∀ (op : Byte) (rest : List Byte),
    decode (op :: rest) = .unknownOpcode op ↔
      op ∉ [0b00000001#8, 0b10000010#8, 0b01000111#8, 0b10100010#8, 0b01010100#8, 0b10100111#8, 0b01010101#8,
        0b01010110#8]) ∧
  ((List.range 256).filter fun n => decode [BitVec.ofNat 8 n] = .unknownOpcode (BitVec.ofNat 8 n)).length = 248

/-! ### One step (R67-R79) -/

/-- When the bytes at `pc` decode to an instruction, a step of a Running core is exactly that instruction's meaning:
the step adds nothing around it (R72). -/
def Obligations.StepRunsDecodedInstruction : Prop :=
  ∀ (s : State) (i : Instr) (rest : List Byte),
    s.status = .running → decode s.fetchWindow = .ok i rest → step s = exec i s

/-- When memory holds an instruction's encoding from `pc` on, a step of a Running core runs that instruction. -/
def Obligations.StepRunsEncodedInstruction : Prop :=
  ∀ (s : State) (i : Instr), s.status = .running → s.holdsAtPc (encode i) → step s = exec i s

/-- R77 and R99: a step at an opcode byte outside the map raises UnknownOpcode with the address and the byte under policy
Fault, whatever follows it in memory, and under policy Skip advances `pc` by 1 or raises OutOfBounds; the default policy is
Fault. -/
def Obligations.UnknownOpcodeFaultsOrSkips : Prop :=
  ∀ (s : State) (op : Byte), s.status = .running → s.memRead s.pc = some op → op ∉ opmapBytes →
    (s.cfg.unknownOpcode = .fault →
      step s = .next { s with status := .faulted, fault := some ⟨.unknownOpcode, s.pc, op.toNat⟩ }) ∧
    (s.cfg.unknownOpcode = .skip →
      (s.pc + 1 < s.cfg.memSize → step s = .next { s with pc := s.pc + 1 }) ∧
      (s.cfg.memSize ≤ s.pc + 1 →
        step s = .next { s with status := .faulted, fault := some ⟨.outOfBoundsMemory, s.pc, s.pc + 1⟩ })) ∧
    State.reset.cfg.unknownOpcode = .fault

/-- From R8 and R67: a Running core's step answers a next state that is Running with its record as before, or Halted, by the
byte 0x01 only, or Faulted with a record; a core that is not Running has no step. That the model's step answers
the named fault `notRunning` there is the model's choice (log 4). -/
def Obligations.StepHasOneOfThreeOutcomes : Prop :=
  (∀ s : State, s.status = .running →
    ∃ t, step s = .next t ∧
      ((t.status = .running ∧ t.fault = s.fault) ∨
        (t.status = .halted ∧ t.fault = s.fault ∧ s.memRead s.pc = some 0x01#8) ∨
        (t.status = .faulted ∧ ∃ f, t.fault = some f))) ∧
  (∀ s : State, s.status ≠ .running → step s = .fault (.notRunning s.status))

/-- R75: a faulting step changes nothing but the status and the fault record, which names the address of the faulting
instruction; then the core stops. -/
def Obligations.FaultingStepIsPrecise : Prop :=
  ∀ s t : State, step s = .next t → t.status = .faulted →
    SameButStatus s t ∧ (∃ kind detail, t.fault = some ⟨kind, s.pc, detail⟩) ∧ ∀ u, step t ≠ .next u

/-- R76: the record a step leaves is the first fault that applies, and none is left when none applies. -/
def Obligations.ReportedFaultIsFirstThatApplies : Prop :=
  ∀ s t : State, s.pc < s.cfg.memSize → s.fault = none → step s = .next t → t.fault = (faultsThatApply s).head?

/-- From R79: a step of a Running core is the pseudocode of the spec, written out without the decoder and the meanings.
What it says of a state with `pc` outside memory, which no run reaches, is the model's reading (log 8). -/
def Obligations.StepIsThePseudocode : Prop :=
  ∀ s : State, s.status = .running → step s = .next (stepPseudocode s)

/-- R19-R21: a step leaves `pc` in memory; it goes to the same place, 1 to 3 bytes on or to a register's value, and never
wraps. -/
def Obligations.NextPcIsInMemory : Prop :=
  ∀ s t : State, s.pc < s.cfg.memSize → step s = .next t →
    t.pc < s.cfg.memSize ∧
      (t.pc = s.pc ∨ t.pc = s.pc + 1 ∨ t.pc = s.pc + 2 ∨ t.pc = s.pc + 3 ∨ ∃ r, t.pc = (s.getReg r).toNat)

/-- R73's own consequence: with 256 bytes of memory every jump that names a register and is taken completes, wherever it
stands. -/
def Obligations.TakenJumpsCompleteAt256 : Prop :=
  ∀ (s : State) (b : Byte) (r : Reg), s.cfg.memSize = 256 → b.toNat = r.val →
    exec (.jmp b) s = .next { s with pc := (s.getReg r).toNat } ∧
    (s.fl[0] = true → exec (.jeq b) s = .next { s with pc := (s.getReg r).toNat }) ∧
    (s.fl[1] = true ∨ s.fl[2] = true →
      exec (.jne b) s = .next { s with pc := (s.getReg r).toNat })

/-- Every step keeps the invariant: canonical memory, `pc` in memory, a legal FL, and a fault record exactly while
Faulted, naming `pc` and fitting its kind. -/
def Obligations.StepKeepsInvariant : Prop :=
  ∀ s t : State, s.Inv → step s = .next t → t.Inv

/-- The invariant holds after reset, for every configuration with at least one byte of memory, and for the reference
one, whose zero REG_INIT and MEM_INIT are the model's choice (logs 2, 3) and do not matter here. -/
def Obligations.InvariantAtReset : Prop :=
  (∀ c : Config, 1 ≤ c.memSize → (State.resetWith c).Inv) ∧ State.reset.Inv

/-! ### Flags (R23-R26, R91) -/

/-- R25: FL is written only by CMP: any other instruction leaves it, and so does a fault, CMP's too; a CMP that completes
leaves exactly one of the three bits set; and a step changes FL only at CMP's byte, if it does not fault. -/
def Obligations.FlagsAreWrittenByCmpOnly : Prop :=
  ∀ (i : Instr) (s t : State), exec i s = .next t →
    ((∀ ra rb, i ≠ .cmp ra rb) → t.fl = s.fl) ∧
    (∀ kind detail, t = s.raised kind detail → t.fl = s.fl) ∧
    (∀ ra rb, i = .cmp ra rb → (∀ kind detail, t ≠ s.raised kind detail) →
      t.fl = 0b001#8 ∨ t.fl = 0b010#8 ∨ t.fl = 0b100#8) ∧
    ∀ u v : State, step u = .next v → v.fl = u.fl ∨ (u.memRead u.pc = some 0xA7#8 ∧ v.status = .running)

/-- R91: the comparison function is unsigned, and exactly one of its three cases applies to any two values. -/
def Obligations.CompareHasExactlyOneOutcome : Prop :=
  ∀ a b : Byte,
    (a.toNat = b.toNat ∧ compareFlags a b = 0b001#8) ∨
    (a.toNat < b.toNat ∧ compareFlags a b = 0b010#8) ∨
    (b.toNat < a.toNat ∧ compareFlags a b = 0b100#8)

/-- CMP followed immediately by a conditional jump: JEQ is taken iff the compared registers are equal, JNE iff they are
not (95_test_vectors.md W4b; R120). -/
def Obligations.CmpDecidesTheNextJump : Prop :=
  ∀ (s : State) (b1 b2 b : Byte) (ra rb r : Reg),
    b1.toNat = ra.val → b2.toNat = rb.val → b.toNat = r.val → s.pc + 5 < s.cfg.memSize →
    (s.getReg r).toNat < s.cfg.memSize →
    ∃ t, exec (.cmp b1 b2) s = .next t ∧
      exec (.jeq b) t =
        .next { t with pc := if s.getReg ra = s.getReg rb then (s.getReg r).toNat else s.pc + 5 } ∧
      exec (.jne b) t =
        .next { t with pc := if s.getReg ra = s.getReg rb then s.pc + 5 else (s.getReg r).toNat }

/-! ### The ALU (R83-R89) -/

/-- R85, R86, R87: the ALU's operations through its interface: the first register gets the sum, difference or product
modulo 256, and every other register and every other part of the state stays. -/
def Obligations.AluResultsAreModulo256 : Prop :=
  ∀ (s : State) (ra rb : Reg),
    (aluInterface "ADD" ra rb s =
      .ok { s with regs := s.regs.set ra.val (BitVec.ofNat 8 (((s.getReg ra).toNat + (s.getReg rb).toNat) % 256)) }) ∧
    ((s.getReg rb).toNat ≤ (s.getReg ra).toNat →
      aluInterface "SUB" ra rb s =
        .ok { s with regs := s.regs.set ra.val (BitVec.ofNat 8 ((s.getReg ra).toNat - (s.getReg rb).toNat)) }) ∧
    ((s.getReg ra).toNat < (s.getReg rb).toNat →
      aluInterface "SUB" ra rb s =
        .ok { s with
          regs := s.regs.set ra.val (BitVec.ofNat 8 ((s.getReg ra).toNat + 256 - (s.getReg rb).toNat)) }) ∧
    (aluInterface "MUL" ra rb s =
      .ok { s with regs := s.regs.set ra.val (BitVec.ofNat 8 (((s.getReg ra).toNat * (s.getReg rb).toNat) % 256)) })

/-- Any other operation name fails with UnsupportedOperation, and the answer holds no state (R88; that the select is the
name's string is the model's reading, log 13). -/
def Obligations.UnrecognisedAluOperationFails : Prop :=
  ∀ (s : State) (ra rb : Reg) (select : String), select ∉ ["ADD", "SUB", "MUL"] →
    aluInterface select ra rb s = .error (.unsupportedOperation select)

/-! ### Memory and output (R31-R42) -/

/-- R35: the core never writes memory, and an instruction's execution does not depend on it: with other memory contents
the same instruction does the same to everything else. -/
def Obligations.CoreReadsMemoryOnlyByFetch : Prop :=
  (∀ s t : State, step s = .next t → t.mem = s.mem ∧ ∀ a, t.memRead a = s.memRead a) ∧
  (∀ (i : Instr) (s t : State) (m : Memory),
    exec i s = .next t → exec i { s with mem := m } = .next { t with mem := m })

/-- R31: PRN that completes appends one value; nothing else changes the output, a faulting step included; reset empties
it. -/
def Obligations.OutputGrowsByPrnOnly : Prop :=
  (∀ (i : Instr) (s t : State), exec i s = .next t →
    ((∀ b, i ≠ .prn b) → t.out = s.out) ∧
    (∀ b, i = .prn b →
      (∃ r : Reg, b.toNat = r.val ∧ t.out = s.out ++ [s.getReg r] ∧ t.pc = s.pc + 2) ∨
      (t.out = s.out ∧ ∃ kind detail, t = s.raised kind detail))) ∧
  (∀ s t : State, step s = .next t →
    t.out = s.out ∨
      (s.memRead s.pc = some 0x47#8 ∧ t.status = .running ∧ ∃ r : Reg, t.out = s.out ++ [s.getReg r])) ∧
  (∀ c : Config, (State.resetWith c).out = [])

/-- The values of R0..R6 and memory that reset leaves open matter only through what registers and memory hold: a step is
the same in a configuration with another REG_INIT (R16, R123). -/
def Obligations.RegInitMattersAtResetOnly : Prop :=
  ∀ (s t : State) (regInit : Vector Byte 7), step s = .next t →
    step (s.withRegInit regInit) = .next (t.withRegInit regInit)

/-- Two memories in canonical form that read alike at every address are equal (the model's memory is plain data). -/
def Obligations.CanonicalMemoriesAreExtensional : Prop :=
  ∀ (c : Config) (m m' : Memory), Memory.wf c m = true → Memory.wf c m' = true →
    (∀ a, a < c.memSize → Memory.read c m a = Memory.read c m' a) → m = m'

/-! ### The host (R38-R42, R78, R108, R111, R115-R119, and 30_encoding.md R63-R66) -/

/-- From R115: reset, allowed whenever the core is not Running, sets every piece of state to its reset value, and is the only
way out of Halted and Faulted: neither a step, nor `run()`, nor the memory port leaves them. That a Running core answers
`busy` is the model's choice (log 9), and so is that every reset of one core, a second one included, gives the same
REG_INIT and MEM_INIT, those of its configuration (log 16). -/
def Obligations.ResetSetsEveryResetValue : Prop :=
  ∀ s : State,
    (s.status ≠ .running →
      ∃ t, hostReset s = .ok t ∧ t.cfg = s.cfg ∧
        (∀ a, a < s.cfg.memSize → t.memRead a = some (s.cfg.memInitAt a)) ∧
        (∀ (i : Nat) (h : i < 7), t.getReg ⟨i, by omega⟩ = s.cfg.regInit[i]) ∧ t.getReg 7 = 0xF4#8 ∧
        t.fl = 0#8 ∧ t.pc = 0 ∧ t.status = .idle ∧ t.fault = none ∧ t.out = []) ∧
    (s.status = .running → hostReset s = .error .busy) ∧
    (s.status = .halted ∨ s.status = .faulted →
      ∀ t : State, t.status ≠ s.status →
        step s ≠ .next t ∧ (∀ fuel, hostRun fuel s ≠ .ok (.returned t) ∧ hostRun fuel s ≠ .ok (.outOfFuel t)) ∧
          (∀ x v, hostWrite x v s ≠ .ok t) ∧ ∀ xs, hostLoad xs s ≠ .ok t)

/-- R38 and R39: the host's `read` and `write` on a core that is not Running: exactly the addresses 0 to MEM_SIZE-1 are
accepted, the address is checked before the value, a write changes that one byte and nothing else. -/
def Obligations.HostReadAndWriteOneByte : Prop :=
  ∀ s : State, s.status ≠ .running → Memory.wf s.cfg s.mem = true →
    (∀ x : Int, ¬ (0 ≤ x ∧ x < s.cfg.memSize) →
      hostRead x s = .error (.outOfBounds x) ∧ ∀ v : Int, hostWrite x v s = .error (.outOfBounds x)) ∧
    (∀ a : Nat, a < s.cfg.memSize →
      (∃ b, s.memRead a = some b ∧ hostRead a s = .ok b) ∧
      (∀ v : Int, ¬ (0 ≤ v ∧ v ≤ 255) → hostWrite a v s = .error (.invalidValue v)) ∧
      (∀ v : Byte, ∃ t, hostWrite a v.toNat s = .ok t ∧ t = { s with mem := t.mem } ∧ t.memRead a = some v ∧
        ∀ a', a' ≠ a → t.memRead a' = s.memRead a'))

/-- R40: the host's `load` on a core that is not Running: too long an image or a bad value writes nothing; otherwise the
image stands from address 0, every other address and every other part of the state as before. -/
def Obligations.HostLoadPlacesTheImage : Prop :=
  ∀ s : State, s.status ≠ .running → Memory.wf s.cfg s.mem = true →
    (∀ xs : List Int, s.cfg.memSize < xs.length → hostLoad xs s = .error (.outOfBounds xs.length)) ∧
    (∀ (pre post : List Int) (x : Int), (pre ++ x :: post).length ≤ s.cfg.memSize →
      (∀ y ∈ pre, 0 ≤ y ∧ y ≤ 255) → ¬ (0 ≤ x ∧ x ≤ 255) →
      hostLoad (pre ++ x :: post) s = .error (.invalidValue x)) ∧
    (∀ bs : List Byte, bs.length ≤ s.cfg.memSize →
      ∃ t, hostLoad (bs.map fun b => (b.toNat : Int)) s = .ok t ∧ t = { s with mem := t.mem } ∧
        (∀ k, k < bs.length → t.memRead k = bs[k]?) ∧
        ∀ a, bs.length ≤ a → t.memRead a = s.memRead a)

/-- Every host operation keeps the invariant. -/
def Obligations.HostOperationsKeepInvariant : Prop :=
  ∀ s t : State, s.Inv →
    (∀ x v : Int, hostWrite x v s = .ok t → t.Inv) ∧ (∀ xs : List Int, hostLoad xs s = .ok t → t.Inv) ∧
    (hostReset s = .ok t → t.Inv) ∧ (∀ fuel, hostRun fuel s = .ok (.returned t) → t.Inv)

/-- A run that returns leaves the core Halted with no record or Faulted with one, memory as it was, and the output with
what it held before at its front (R111, R119). -/
def Obligations.RunEndsHaltedOrFaulted : Prop :=
  ∀ (s t : State) (fuel : Nat), s.status = .idle → s.fault = none → hostRun fuel s = .ok (.returned t) →
    ((t.status = .halted ∧ t.fault = none) ∨ (t.status = .faulted ∧ ∃ f, t.fault = some f)) ∧
    (∀ a, t.memRead a = s.memRead a) ∧ t.cfg = s.cfg ∧ ∃ more, t.out = s.out ++ more

/-- A Halted or Faulted core stays so: `run()` returns at once with no change, and the memory port changes neither
status nor record; only reset leaves (R67, R78, R102, R108). -/
def Obligations.StoppedCoreWaitsForReset : Prop :=
  ∀ s : State, s.status = .halted ∨ s.status = .faulted →
    (∀ fuel, hostRun fuel s = .ok (.returned s)) ∧ (∀ t, step s ≠ .next t) ∧
    (∀ (x v : Int) (t : State), hostWrite x v s = .ok t → t.status = s.status ∧ t.fault = s.fault) ∧
    (∀ (xs : List Int) (t : State), hostLoad xs s = .ok t → t.status = s.status ∧ t.fault = s.fault) ∧
    ∃ t, hostReset s = .ok t ∧ t.status = .idle

/-- The end of a run does not depend on the runner's fuel: once a run returns, more fuel gives the same end (R123,
R124). -/
def Obligations.RunEndDoesNotDependOnFuel : Prop :=
  ∀ (s t : State) (n m : Nat), n ≤ m → hostRun n s = .ok (.returned t) → hostRun m s = .ok (.returned t)

/-- R66: an image written as text, one line of eight binary digits a byte, parses back to the same image, and `load` puts
the same bytes at the same addresses. -/
def Obligations.ProgramTextRoundTrip : Prop :=
  ∀ bs : List Byte, parseProgram (programText bs) = .ok bs ∧
    ∀ s : State, s.status ≠ .running → Memory.wf s.cfg s.mem = true → bs.length ≤ s.cfg.memSize →
      ∃ t, hostLoad (bs.map fun b => (b.toNat : Int)) s = .ok t ∧ ∀ k, k < bs.length → t.memRead k = bs[k]?

/-- The assembler agrees with the encoder: a well-formed instruction written in the syntax of R63 assembles to its
encoding. -/
def Obligations.AssemblerAgreesWithEncoder : Prop :=
  ∀ i : Instr, i.wf = true → assemble (instrText i) = .ok (encode i)

/-- The host's text of the output: one line a value, in order, each the value's decimal digits with no leading zero,
and 0 is `0` (R111). -/
def Obligations.OutputTextIsDecimalLines : Prop :=
  ∀ out : List Byte,
    splitLines (renderOutput out) = (out.map fun v => decimalDigits v.toNat) ++ [[]] ∧
    ∀ v ∈ out, digitsValue? 10 0 (decimalDigits v.toNat) = some v.toNat ∧
      (v = 0#8 → decimalDigits v.toNat = ['0']) ∧ (v ≠ 0#8 → (decimalDigits v.toNat).head? ≠ some '0')

/-- A word of the opcode table placed where the core fetches runs as the next step (the model's stand-in for `load` and
`run()`, log 5). -/
def Obligations.PlacedWordRunsNext : Prop :=
  ∀ (s : State) (nbits w : Nat) (i : Instr), Memory.wf s.cfg s.mem = true → s.pc + 2 < s.cfg.memSize →
    decodeTableWord nbits w = some i → step (s.withFetchWord nbits w) = exec i (s.withFetchWord nbits w)
end

