-- ==== Sys2Proof/Laws/Decode.lean ====
section
/-! SUPPORT. The opcode map's small laws: the byte of a row selects that row, and a selected row has that byte. -/

namespace Sys2Proof

@[simp] theorem Opcode.ofByte?_byte (o : Opcode) : Opcode.ofByte? o.byte = some o := by cases o <;> rfl

theorem Opcode.byte_of_ofByte? {b : Byte} {o : Opcode} (h : Opcode.ofByte? b = some o) : o.byte = b := by
  simpa using List.find?_some h

/-- A byte selects no row exactly when it is the byte of no row. -/
theorem Opcode.ofByte?_eq_none {b : Byte} : Opcode.ofByte? b = none ↔ ∀ o : Opcode, o.byte ≠ b := by
  constructor
  · rintro h o rfl
    rw [Opcode.ofByte?_byte] at h
    cases h
  · intro h
    cases hb : Opcode.ofByte? b with
    | none => rfl
    | some o => exact absurd (Opcode.byte_of_ofByte? hb) (h o)

theorem decode_cons_of_unknown {b : Byte} {rest : List Byte} (h : Opcode.ofByte? b = none) :
    decode (b :: rest) = .unknownOpcode b := by
  simp only [decode, h]

theorem decode_cons_of_known {b : Byte} {o : Opcode} {rest : List Byte} (h : Opcode.ofByte? b = some o) :
    decode (b :: rest) = o.decodeOperands rest := by
  simp only [decode, h]

/-- A known opcode's operands are read, or are missing from the place where the bytes end. -/
theorem Opcode.decodeOperands_cases (o : Opcode) (rest : List Byte) :
    (∃ i left, o.decodeOperands rest = .ok i left) ∨
      o.decodeOperands rest = .truncated (rest.length + 1) ∧ rest.length < 2 := by
  cases o <;> rcases rest with _ | ⟨a, _ | ⟨b, rest⟩⟩ <;>
    simp [Opcode.decodeOperands, decodeFR, decodeFRR]

/-- The decoder rejects a byte by name only if it stands first and is no row's byte. -/
theorem decode_eq_unknown {bytes : List Byte} {op : Byte} (h : decode bytes = .unknownOpcode op) :
    ∃ rest, bytes = op :: rest ∧ Opcode.ofByte? op = none := by
  rcases bytes with _ | ⟨b, rest⟩
  · cases h
  · cases hb : Opcode.ofByte? b with
    | none =>
      rw [decode_cons_of_unknown hb] at h
      cases h
      exact ⟨rest, rfl, hb⟩
    | some o =>
      rw [decode_cons_of_known hb] at h
      obtain ⟨i, left, ho⟩ | ⟨ho, -⟩ := o.decodeOperands_cases rest <;> rw [ho] at h <;> cases h

/-- Bytes are too few only at the place where they end, which is before the third. -/
theorem decode_eq_truncated {bytes : List Byte} {k : Nat} (h : decode bytes = .truncated k) :
    k = bytes.length ∧ k < 3 := by
  rcases bytes with _ | ⟨b, rest⟩
  · cases h
    decide
  · cases hb : Opcode.ofByte? b with
    | none =>
      rw [decode_cons_of_unknown hb] at h
      cases h
    | some o =>
      rw [decode_cons_of_known hb] at h
      obtain ⟨i, left, ho⟩ | ⟨ho, hl⟩ := o.decodeOperands_cases rest <;> rw [ho] at h <;> cases h
      exact ⟨rfl, by omega⟩

end Sys2Proof
end

