-- ==== Sys2Proof/Laws/State.lean ====
section
/-! SUPPORT. What each update of the state leaves in each field, and the register file's read after write. -/

namespace Sys2Proof.Machine

section
variable (s : State) (r : Reg) (v : Byte) (a : Nat) (st : Status) (k : FaultKind) (d : Nat) (bs : List Byte)

@[simp] theorem State.setReg_cfg : (s.setReg r v).cfg = s.cfg := rfl
@[simp] theorem State.setReg_mem : (s.setReg r v).mem = s.mem := rfl
@[simp] theorem State.setReg_fl : (s.setReg r v).fl = s.fl := rfl
@[simp] theorem State.setReg_pc : (s.setReg r v).pc = s.pc := rfl
@[simp] theorem State.setReg_status : (s.setReg r v).status = s.status := rfl
@[simp] theorem State.setReg_fault : (s.setReg r v).fault = s.fault := rfl
@[simp] theorem State.setReg_out : (s.setReg r v).out = s.out := rfl

@[simp] theorem State.setFl_cfg : (s.setFl v).cfg = s.cfg := rfl
@[simp] theorem State.setFl_mem : (s.setFl v).mem = s.mem := rfl
@[simp] theorem State.setFl_regs : (s.setFl v).regs = s.regs := rfl
@[simp] theorem State.setFl_fl : (s.setFl v).fl = v := rfl
@[simp] theorem State.setFl_pc : (s.setFl v).pc = s.pc := rfl
@[simp] theorem State.setFl_status : (s.setFl v).status = s.status := rfl
@[simp] theorem State.setFl_fault : (s.setFl v).fault = s.fault := rfl
@[simp] theorem State.setFl_out : (s.setFl v).out = s.out := rfl

@[simp] theorem State.setPc_cfg : (s.setPc a).cfg = s.cfg := rfl
@[simp] theorem State.setPc_mem : (s.setPc a).mem = s.mem := rfl
@[simp] theorem State.setPc_regs : (s.setPc a).regs = s.regs := rfl
@[simp] theorem State.setPc_fl : (s.setPc a).fl = s.fl := rfl
@[simp] theorem State.setPc_pc : (s.setPc a).pc = a := rfl
@[simp] theorem State.setPc_status : (s.setPc a).status = s.status := rfl
@[simp] theorem State.setPc_fault : (s.setPc a).fault = s.fault := rfl
@[simp] theorem State.setPc_out : (s.setPc a).out = s.out := rfl

@[simp] theorem State.emit_cfg : (s.emit v).cfg = s.cfg := rfl
@[simp] theorem State.emit_mem : (s.emit v).mem = s.mem := rfl
@[simp] theorem State.emit_regs : (s.emit v).regs = s.regs := rfl
@[simp] theorem State.emit_fl : (s.emit v).fl = s.fl := rfl
@[simp] theorem State.emit_pc : (s.emit v).pc = s.pc := rfl
@[simp] theorem State.emit_status : (s.emit v).status = s.status := rfl
@[simp] theorem State.emit_fault : (s.emit v).fault = s.fault := rfl
@[simp] theorem State.emit_out : (s.emit v).out = s.out ++ [v] := rfl

@[simp] theorem State.setStatus_cfg : (s.setStatus st).cfg = s.cfg := rfl
@[simp] theorem State.setStatus_mem : (s.setStatus st).mem = s.mem := rfl
@[simp] theorem State.setStatus_regs : (s.setStatus st).regs = s.regs := rfl
@[simp] theorem State.setStatus_fl : (s.setStatus st).fl = s.fl := rfl
@[simp] theorem State.setStatus_pc : (s.setStatus st).pc = s.pc := rfl
@[simp] theorem State.setStatus_status : (s.setStatus st).status = st := rfl
@[simp] theorem State.setStatus_fault : (s.setStatus st).fault = s.fault := rfl
@[simp] theorem State.setStatus_out : (s.setStatus st).out = s.out := rfl

@[simp] theorem State.raised_cfg : (s.raised k d).cfg = s.cfg := rfl
@[simp] theorem State.raised_mem : (s.raised k d).mem = s.mem := rfl
@[simp] theorem State.raised_regs : (s.raised k d).regs = s.regs := rfl
@[simp] theorem State.raised_fl : (s.raised k d).fl = s.fl := rfl
@[simp] theorem State.raised_pc : (s.raised k d).pc = s.pc := rfl
@[simp] theorem State.raised_status : (s.raised k d).status = .faulted := rfl
@[simp] theorem State.raised_fault : (s.raised k d).fault = some ⟨k, s.pc, d⟩ := rfl
@[simp] theorem State.raised_out : (s.raised k d).out = s.out := rfl

@[simp] theorem State.placeAtPc_cfg : (s.placeAtPc bs).cfg = s.cfg := rfl
@[simp] theorem State.placeAtPc_mem : (s.placeAtPc bs).mem = Memory.writeBytes s.cfg s.mem s.pc bs := rfl
@[simp] theorem State.placeAtPc_regs : (s.placeAtPc bs).regs = s.regs := rfl
@[simp] theorem State.placeAtPc_fl : (s.placeAtPc bs).fl = s.fl := rfl
@[simp] theorem State.placeAtPc_pc : (s.placeAtPc bs).pc = s.pc := rfl
@[simp] theorem State.placeAtPc_status : (s.placeAtPc bs).status = s.status := rfl
@[simp] theorem State.placeAtPc_fault : (s.placeAtPc bs).fault = s.fault := rfl
@[simp] theorem State.placeAtPc_out : (s.placeAtPc bs).out = s.out := rfl

@[simp] theorem State.getReg_setReg_self : (s.setReg r v).getReg r = v := by
  simp [State.getReg, State.setReg]

theorem State.getReg_setReg_ne {r r' : Reg} (h : r' ≠ r) : (s.setReg r v).getReg r' = s.getReg r' := by
  have : r.val ≠ r'.val := fun e => h (Fin.ext e.symm)
  simp [State.getReg, State.setReg, this]

@[simp] theorem State.getReg_setFl : (s.setFl v).getReg r = s.getReg r := rfl
@[simp] theorem State.getReg_setPc : (s.setPc a).getReg r = s.getReg r := rfl
@[simp] theorem State.getReg_emit : (s.emit v).getReg r = s.getReg r := rfl
@[simp] theorem State.getReg_setStatus : (s.setStatus st).getReg r = s.getReg r := rfl
@[simp] theorem State.getReg_raised : (s.raised k d).getReg r = s.getReg r := rfl

end

/-- Two states that agree on configuration and memory read the same everywhere. -/
theorem State.memRead_congr {s t : State} (hc : t.cfg = s.cfg) (hm : t.mem = s.mem) (a : Nat) :
    t.memRead a = s.memRead a := by
  simp [State.memRead, hc, hm]

end Sys2Proof.Machine
end

