-- ==== Sys2Proof/Laws/Ops.lean ====
section
/-! SUPPORT. One lemma for each shared operation, saying once everything it can do. -/

namespace Sys2Proof.Machine

variable {s t u : State}

theorem raise_eq (kind : FaultKind) (detail : Nat) : raise kind detail s = .next (s.raised kind detail) := rfl

theorem commit_of_lt {next : Nat} (h : next < s.cfg.memSize) : commit s t next = .next (t.setPc next) := by
  simp [commit, h]

theorem commit_of_le {next : Nat} (h : s.cfg.memSize ≤ next) :
    commit s t next = .next (s.raised .outOfBoundsMemory next) := by
  simp [commit, raise, Nat.not_lt.2 h]

/-- A commit completes the step or raises OutOfBounds(Memory) for its next `pc`. -/
theorem commit_cases {next : Nat} (h : commit s t next = .next u) :
    (next < s.cfg.memSize ∧ u = t.setPc next) ∨
      (s.cfg.memSize ≤ next ∧ u = s.raised .outOfBoundsMemory next) := by
  by_cases hn : next < s.cfg.memSize
  · rw [commit_of_lt hn] at h
    cases h
    exact .inl ⟨hn, rfl⟩
  · rw [commit_of_le (Nat.not_lt.1 hn)] at h
    cases h
    exact .inr ⟨Nat.not_lt.1 hn, rfl⟩

theorem regIndex?_eq_some {b : Byte} {r : Reg} : regIndex? b = some r ↔ b.toNat = r.val := by
  unfold regIndex?
  split
  · simp [Fin.ext_iff]
  · rename_i h
    have := r.isLt
    constructor
    · intro e
      cases e
    · intro e
      omega

theorem regIndex?_eq_none {b : Byte} : regIndex? b = none ↔ 8 ≤ b.toNat := by
  unfold regIndex?
  split
  · simp
    omega
  · simp
    omega

theorem withReg_of_names {b : Byte} {r : Reg} {k : Reg → Result} (h : b.toNat = r.val) : withReg b s k = k r := by
  simp [withReg, regIndex?_eq_some.2 h]

theorem withReg_of_le {b : Byte} {k : Reg → Result} (h : 8 ≤ b.toNat) :
    withReg b s k = .next (s.raised .outOfBoundsRegister b.toNat) := by
  simp [withReg, regIndex?_eq_none.2 h, raise]

/-- A register operand names a register, with which the instruction goes on, or raises OutOfBounds(Register). -/
theorem withReg_cases {b : Byte} {k : Reg → Result} (h : withReg b s k = .next u) :
    (∃ r : Reg, b.toNat = r.val ∧ k r = .next u) ∨
      (8 ≤ b.toNat ∧ u = s.raised .outOfBoundsRegister b.toNat) := by
  by_cases hb : b.toNat < 8
  · refine .inl ⟨⟨b.toNat, hb⟩, rfl, ?_⟩
    rwa [withReg_of_names (r := ⟨b.toNat, hb⟩) rfl] at h
  · rw [withReg_of_le (Nat.not_lt.1 hb)] at h
    cases h
    exact .inr ⟨Nat.not_lt.1 hb, rfl⟩

theorem memRead_of_lt {a : Nat} (h : a < s.cfg.memSize) : s.memRead a = some (Memory.read s.cfg s.mem a) := by
  simp [State.memRead, h]

theorem memRead_of_le {a : Nat} (h : s.cfg.memSize ≤ a) : s.memRead a = none := by
  simp [State.memRead, Nat.not_lt.2 h]

theorem memRead_eq_some {a : Nat} {b : Byte} :
    s.memRead a = some b ↔ a < s.cfg.memSize ∧ Memory.read s.cfg s.mem a = b := by
  by_cases h : a < s.cfg.memSize <;> simp [State.memRead, h]

theorem memRead_eq_none {a : Nat} : s.memRead a = none ↔ s.cfg.memSize ≤ a := by
  by_cases h : a < s.cfg.memSize <;> simp [State.memRead, h]
  omega

/-- The fetch window is the three bytes from `pc` on, as far as they are in memory. -/
theorem fetchWindow_eq :
    s.fetchWindow =
      (s.memRead s.pc).toList ++ (s.memRead (s.pc + 1)).toList ++ (s.memRead (s.pc + 2)).toList := by
  unfold State.fetchWindow
  cases h : s.memRead s.pc <;> cases h1 : s.memRead (s.pc + 1) <;> cases h2 : s.memRead (s.pc + 2) <;>
    simp [h, h1, h2]

/-- The fetch window with all three bytes in memory. -/
theorem fetchWindow_three (h : s.pc + 2 < s.cfg.memSize) :
    s.fetchWindow = [Memory.read s.cfg s.mem s.pc, Memory.read s.cfg s.mem (s.pc + 1),
      Memory.read s.cfg s.mem (s.pc + 2)] := by
  simp [State.fetchWindow, memRead_of_lt (show s.pc < s.cfg.memSize by omega),
    memRead_of_lt (show s.pc + 1 < s.cfg.memSize by omega), memRead_of_lt h]

/-- The fetch window one byte before the end of memory. -/
theorem fetchWindow_two (h : s.pc + 2 = s.cfg.memSize) :
    s.fetchWindow = [Memory.read s.cfg s.mem s.pc, Memory.read s.cfg s.mem (s.pc + 1)] := by
  simp [State.fetchWindow, memRead_of_lt (show s.pc < s.cfg.memSize by omega),
    memRead_of_lt (show s.pc + 1 < s.cfg.memSize by omega), memRead_of_le (show s.cfg.memSize ≤ s.pc + 2 by omega)]

/-- The fetch window at the last address of memory. -/
theorem fetchWindow_one (h : s.pc + 1 = s.cfg.memSize) :
    s.fetchWindow = [Memory.read s.cfg s.mem s.pc] := by
  simp [State.fetchWindow, memRead_of_lt (show s.pc < s.cfg.memSize by omega),
    memRead_of_le (show s.cfg.memSize ≤ s.pc + 1 by omega), memRead_of_le (show s.cfg.memSize ≤ s.pc + 2 by omega)]

/-- The fetch window of a `pc` outside memory. -/
theorem fetchWindow_none (h : s.cfg.memSize ≤ s.pc) : s.fetchWindow = [] := by
  simp [State.fetchWindow, memRead_of_le h, memRead_of_le (show s.cfg.memSize ≤ s.pc + 1 by omega),
    memRead_of_le (show s.cfg.memSize ≤ s.pc + 2 by omega)]

end Sys2Proof.Machine
end

