-- ==== Sys2Proof/Laws/Exec.lean ====
section
/-! SUPPORT. What one instruction and one step can do, said once: complete with its effect, skip an unknown byte, or raise
a fault that leaves everything else as it was. -/

namespace Sys2Proof.Machine

/-- The completed effect of an instruction at a state. -/
inductive Effect (s : State) : Instr → State → Prop where
  | halt : Effect s .halt (s.setStatus .halted)
  | ldi {b imm : Byte} {r : Reg} (h : b.toNat = r.val) (hn : s.pc + 3 < s.cfg.memSize) :
      Effect s (.ldi b imm) ((s.setReg r imm).setPc (s.pc + 3))
  | prn {b : Byte} {r : Reg} (h : b.toNat = r.val) (hn : s.pc + 2 < s.cfg.memSize) :
      Effect s (.prn b) ((s.emit (s.getReg r)).setPc (s.pc + 2))
  | mul {ba bb : Byte} {ra rb : Reg} (ha : ba.toNat = ra.val) (hb : bb.toNat = rb.val)
      (hn : s.pc + 3 < s.cfg.memSize) : Effect s (.mul ba bb) ((alu .mul ra rb s).setPc (s.pc + 3))
  | cmp {ba bb : Byte} {ra rb : Reg} (ha : ba.toNat = ra.val) (hb : bb.toNat = rb.val)
      (hn : s.pc + 3 < s.cfg.memSize) :
      Effect s (.cmp ba bb) ((s.setFl (compareFlags (s.getReg ra) (s.getReg rb))).setPc (s.pc + 3))
  | jmp {b : Byte} {r : Reg} (h : b.toNat = r.val) (hn : (s.getReg r).toNat < s.cfg.memSize) :
      Effect s (.jmp b) (s.setPc (s.getReg r).toNat)
  | jeq {b : Byte} {r : Reg} {next : Nat} (h : b.toNat = r.val)
      (he : next = if flagE s.fl then (s.getReg r).toNat else s.pc + 2) (hn : next < s.cfg.memSize) :
      Effect s (.jeq b) (s.setPc next)
  | jne {b : Byte} {r : Reg} {next : Nat} (h : b.toNat = r.val)
      (he : next = if flagL s.fl || flagG s.fl then (s.getReg r).toNat else s.pc + 2)
      (hn : next < s.cfg.memSize) : Effect s (.jne b) (s.setPc next)

/-- A fault's record fits what the step found. -/
def RaisedFrom (s t : State) : Prop :=
  (∃ d, s.cfg.memSize ≤ d ∧ t = s.raised .outOfBoundsMemory d) ∨
    (∃ b : Byte, 8 ≤ b.toNat ∧ t = s.raised .outOfBoundsRegister b.toNat)

variable {s t : State}

theorem withReg_commit_cases {b : Byte} {w : Reg → State} {next : Reg → Nat}
    (h : withReg b s (fun r => commit s (w r) (next r)) = .next t) :
    (∃ r : Reg, b.toNat = r.val ∧ next r < s.cfg.memSize ∧ t = (w r).setPc (next r)) ∨ RaisedFrom s t := by
  obtain ⟨r, hr, h⟩ | ⟨hb, rfl⟩ := withReg_cases h
  · obtain ⟨hn, rfl⟩ | ⟨hn, rfl⟩ := commit_cases h
    · exact .inl ⟨r, hr, hn, rfl⟩
    · exact .inr (.inl ⟨_, hn, rfl⟩)
  · exact .inr (.inr ⟨b, hb, rfl⟩)

theorem withRegs_commit_cases {b1 b2 : Byte} {w : Reg → Reg → State} {next : Nat}
    (h : withRegs b1 b2 s (fun ra rb => commit s (w ra rb) next) = .next t) :
    (∃ ra rb : Reg, b1.toNat = ra.val ∧ b2.toNat = rb.val ∧ next < s.cfg.memSize ∧ t = (w ra rb).setPc next) ∨
      RaisedFrom s t := by
  obtain ⟨ra, ha, h⟩ | ⟨hb, rfl⟩ := withReg_cases h
  · obtain ⟨rb, hb, hn, rfl⟩ | h := withReg_commit_cases h
    · exact .inl ⟨ra, rb, ha, hb, hn, rfl⟩
    · exact .inr h
  · exact .inr (.inr ⟨b1, hb, rfl⟩)

/-- Everything an instruction can do. -/
theorem exec_cases {i : Instr} (h : exec i s = .next t) : Effect s i t ∨ RaisedFrom s t := by
  cases i with
  | halt =>
    cases h
    exact .inl .halt
  | ldi b imm =>
    obtain ⟨r, hr, hn, rfl⟩ | h := withReg_commit_cases h
    · exact .inl (.ldi hr hn)
    · exact .inr h
  | prn b =>
    obtain ⟨r, hr, hn, rfl⟩ | h := withReg_commit_cases h
    · exact .inl (.prn hr hn)
    · exact .inr h
  | mul ba bb =>
    obtain ⟨ra, rb, ha, hb, hn, rfl⟩ | h := withRegs_commit_cases h
    · exact .inl (.mul ha hb hn)
    · exact .inr h
  | jmp b =>
    obtain ⟨r, hr, hn, rfl⟩ | h := withReg_commit_cases h
    · exact .inl (.jmp hr hn)
    · exact .inr h
  | cmp ba bb =>
    obtain ⟨ra, rb, ha, hb, hn, rfl⟩ | h := withRegs_commit_cases h
    · exact .inl (.cmp ha hb hn)
    · exact .inr h
  | jeq b =>
    obtain ⟨r, hr, hn, rfl⟩ | h := withReg_commit_cases h
    · exact .inl (.jeq hr rfl hn)
    · exact .inr h
  | jne b =>
    obtain ⟨r, hr, hn, rfl⟩ | h := withReg_commit_cases h
    · exact .inl (.jne hr rfl hn)
    · exact .inr h

/-- A step of a core that is not Running is the machine's one stop. -/
theorem step_of_not_running (h : s.status ≠ .running) : step s = .fault (.notRunning s.status) := by
  unfold step
  cases hs : s.status <;> simp_all

/-- A step of a Running core goes by what its bytes decode to. -/
theorem step_of_running (h : s.status = .running) :
    step s =
      match decode s.fetchWindow with
      | .ok i _ => exec i s
      | .unknownOpcode op => unknownOpcodeStep op s
      | .truncated k => raise .outOfBoundsMemory (s.pc + k) s := by
  cases s
  cases h
  rfl

end Sys2Proof.Machine
end

