-- ==== Sys2Proof/Laws/Memory.lean ====
section
/-! SUPPORT. Memory's laws: read after write, and every operation keeps the canonical form. -/

namespace Sys2Proof.Machine

variable {c : Config}

theorem Memory.wfFrom_cons {lo a : Nat} {b : Byte} {m : Memory} :
    Memory.wfFrom c lo ((a, b) :: m) = true ↔
      lo ≤ a ∧ a < c.memSize ∧ b ≠ c.memInitAt a ∧ Memory.wfFrom c (a + 1) m = true := by
  simp [Memory.wfFrom, and_assoc]

theorem Memory.wfFrom_mono {lo lo' : Nat} {m : Memory} (h : lo' ≤ lo) (hm : Memory.wfFrom c lo m = true) :
    Memory.wfFrom c lo' m = true := by
  cases m with
  | nil => rfl
  | cons e m =>
    obtain ⟨a, b⟩ := e
    rw [Memory.wfFrom_cons] at hm ⊢
    exact ⟨h.trans hm.1, hm.2⟩

/-- Below its first address a canonical memory reads as its reset contents. -/
theorem Memory.read_of_lt {lo a : Nat} {m : Memory} (hm : Memory.wfFrom c lo m = true) (h : a < lo) :
    Memory.read c m a = c.memInitAt a := by
  induction m generalizing lo with
  | nil => rfl
  | cons e m ih =>
    obtain ⟨k, b⟩ := e
    rw [Memory.wfFrom_cons] at hm
    have : k ≠ a := by omega
    simp only [Memory.read, this, if_false]
    exact ih hm.2.2.2 (by omega)

theorem Memory.write_wfFrom {lo a : Nat} {m : Memory} {v : Byte} (hm : Memory.wfFrom c lo m = true) (hlo : lo ≤ a)
    (ha : a < c.memSize) : Memory.wfFrom c lo (Memory.write c m a v) = true := by
  induction m generalizing lo with
  | nil =>
    simp only [Memory.write]
    split
    · rfl
    · rename_i h
      exact Memory.wfFrom_cons.2 ⟨hlo, ha, h, rfl⟩
  | cons e m ih =>
    obtain ⟨k, b⟩ := e
    have h := Memory.wfFrom_cons.1 hm
    simp only [Memory.write]
    split
    · rename_i hk
      split
      · exact hm
      · rename_i hv
        exact Memory.wfFrom_cons.2 ⟨hlo, ha, hv, Memory.wfFrom_cons.2 ⟨by omega, h.2⟩⟩
    · split
      · rename_i hk hk'
        subst hk'
        split
        · exact Memory.wfFrom_mono (by omega) h.2.2.2
        · rename_i hv
          exact Memory.wfFrom_cons.2 ⟨hlo, ha, hv, h.2.2.2⟩
      · exact Memory.wfFrom_cons.2 ⟨h.1, h.2.1, h.2.2.1, ih h.2.2.2 (by omega)⟩

/-- A write to an address in memory keeps the canonical form. -/
theorem Memory.write_wf {a : Nat} {m : Memory} {v : Byte} (hm : Memory.wf c m = true) (ha : a < c.memSize) :
    Memory.wf c (Memory.write c m a v) = true :=
  Memory.write_wfFrom hm (Nat.zero_le a) ha

/-- Writing bytes keeps the canonical form, wherever they start. -/
theorem Memory.writeBytes_wf {a : Nat} {m : Memory} {bs : List Byte} (hm : Memory.wf c m = true) :
    Memory.wf c (Memory.writeBytes c m a bs) = true := by
  induction bs generalizing a m with
  | nil => exact hm
  | cons v vs ih =>
    apply ih
    split
    · exact Memory.write_wf hm ‹_›
    · exact hm

/-- Read after a write to the same address. -/
theorem Memory.read_write_self {lo a : Nat} {m : Memory} {v : Byte} (hm : Memory.wfFrom c lo m = true) :
    Memory.read c (Memory.write c m a v) a = v := by
  induction m generalizing lo with
  | nil =>
    simp only [Memory.write]
    split
    · simp_all [Memory.read]
    · simp [Memory.read]
  | cons e m ih =>
    obtain ⟨k, b⟩ := e
    have h := Memory.wfFrom_cons.1 hm
    simp only [Memory.write]
    split
    · rename_i hk
      split
      · rename_i hv
        have : k ≠ a := by omega
        simp only [Memory.read, this, if_false, hv]
        exact Memory.read_of_lt h.2.2.2 (by omega)
      · simp [Memory.read]
    · split
      · rename_i hk hk'
        subst hk'
        split
        · rename_i hv
          exact (Memory.read_of_lt h.2.2.2 (by omega)).trans hv.symm
        · simp [Memory.read]
      · rename_i hk hk'
        simp only [Memory.read, Ne.symm hk', if_false]
        exact ih h.2.2.2

/-- A write leaves every other address alone. -/
theorem Memory.read_write_ne {a a' : Nat} {m : Memory} {v : Byte} (hne : a' ≠ a) :
    Memory.read c (Memory.write c m a v) a' = Memory.read c m a' := by
  induction m with
  | nil =>
    simp only [Memory.write]
    split
    · rfl
    · simp [Memory.read, hne.symm]
  | cons e m ih =>
    obtain ⟨k, b⟩ := e
    simp only [Memory.write]
    split
    · split
      · rfl
      · simp [Memory.read, hne.symm]
    · split
      · rename_i hk'
        subst hk'
        split <;> simp [Memory.read, hne.symm]
      · simp only [Memory.read, ih]

/-- Read after writing bytes: each byte where it was put, every other address as before. -/
theorem Memory.read_writeBytes {a : Nat} {m : Memory} {bs : List Byte} (hm : Memory.wf c m = true)
    (hl : a + bs.length ≤ c.memSize) (x : Nat) :
    Memory.read c (Memory.writeBytes c m a bs) x =
      if h : a ≤ x ∧ x < a + bs.length then bs[x - a] else Memory.read c m x := by
  induction bs generalizing a m with
  | nil => rw [dif_neg (by simp)]; rfl
  | cons b bs ih =>
    simp only [List.length_cons] at hl
    have ha : a < c.memSize := by omega
    rw [Memory.writeBytes, if_pos ha, ih (Memory.write_wf hm ha) (by omega)]
    by_cases hx : x = a
    · subst hx
      simp [Memory.read_write_self hm]
    · by_cases h1 : a + 1 ≤ x ∧ x < a + 1 + bs.length
      · have h2 : a ≤ x ∧ x < a + (bs.length + 1) := by omega
        have h3 : x - a = (x - (a + 1)) + 1 := by omega
        simp [h1, h2, h3]
      · have h2 : ¬ (a ≤ x ∧ x < a + (b :: bs).length) := by
          simp only [List.length_cons]
          omega
        rw [dif_neg h1, dif_neg h2, Memory.read_write_ne hx]

/-- Memory at reset is canonical. -/
theorem State.resetWith_mem_wf (c : Config) : Memory.wf c (State.resetWith c).mem = true := rfl

theorem State.reset_mem_wf : Memory.wf State.reset.cfg State.reset.mem = true := rfl

end Sys2Proof.Machine
end

