-- ==== Sys2Proof/Laws/Host.lean ====
section
/-! SUPPORT. The guards and the value checks of the host's operations. -/

namespace Sys2Proof.Machine

variable {α : Type} {s : State}

theorem whenStopped_of_not_running {r : Except HostError α} (h : s.status ≠ .running) : whenStopped s r = r := by
  unfold whenStopped
  split <;> simp_all

theorem whenStopped_of_running {r : Except HostError α} (h : s.status = .running) :
    whenStopped s r = .error .busy := by
  simp [whenStopped, h]

/-- A host operation that succeeds did so on a core that is not Running. -/
theorem whenStopped_eq_ok {r : Except HostError α} {x : α} (h : whenStopped s r = .ok x) :
    s.status ≠ .running ∧ r = .ok x := by
  unfold whenStopped at h
  split at h <;> simp_all

theorem addrOf?_eq_some {c : Config} {x : Int} {a : Nat} : addrOf? c x = some a ↔ x = a ∧ a < c.memSize := by
  unfold addrOf?
  split <;> simp <;> omega

theorem byteOf?_toNat (b : Byte) : byteOf? (b.toNat : Int) = some b := by
  have h : (b.toNat : Int) ≤ 255 := by
    have := b.isLt
    omega
  simp [byteOf?, h]

theorem byteOf?_eq_none {x : Int} : byteOf? x = none ↔ ¬ (0 ≤ x ∧ x ≤ 255) := by
  unfold byteOf?
  split <;> simp_all

/-- Bytes given as integers are all accepted. -/
theorem bytesOf_map_toNat (bs : List Byte) : bytesOf (bs.map fun b => (b.toNat : Int)) = .ok bs := by
  induction bs with
  | nil => rfl
  | cons b bs ih => simp [bytesOf, byteOf?_toNat, ih]

/-- A loop that finds the core not Running returns it. -/
theorem runLoop_of_not_running {n : Nat} (h : s.status ≠ .running) : runLoop n s = .returned s := by
  cases n with
  | zero => simp [runLoop, h]
  | succ n =>
    have : step s = .fault (.notRunning s.status) := by
      unfold step
      cases hs : s.status <;> simp_all
    simp [runLoop, this]

end Sys2Proof.Machine
end

