-- ==== Sys2Proof/Laws/PerInstr.lean ====
section
/-! SUPPORT. Statements about every instruction as syntax, one lemma for each constructor. -/

namespace Sys2Proof.Laws.EncodeSize

/-- An encoding has the instruction's length, 1 to 3 bytes (R54). -/
def Statement (i : Instr) : Prop := (encode i).length = i.size ∧ 1 ≤ i.size ∧ i.size ≤ 3

theorem halt : Statement .halt := ⟨rfl, Nat.le_add_left _ _, Nat.le_add_left 1 2⟩

theorem ldi (reg imm : Byte) : Statement (.ldi reg imm) := ⟨rfl, Nat.le_add_left _ _, Nat.le_refl 3⟩

theorem prn (reg : Byte) : Statement (.prn reg) := ⟨rfl, Nat.le_add_left _ _, Nat.le_succ 2⟩

theorem mul (ra rb : Byte) : Statement (.mul ra rb) := ⟨rfl, Nat.le_add_left _ _, Nat.le_refl 3⟩

theorem jmp (reg : Byte) : Statement (.jmp reg) := ⟨rfl, Nat.le_add_left _ _, Nat.le_succ 2⟩

theorem cmp (ra rb : Byte) : Statement (.cmp ra rb) := ⟨rfl, Nat.le_add_left _ _, Nat.le_refl 3⟩

theorem jeq (reg : Byte) : Statement (.jeq reg) := ⟨rfl, Nat.le_add_left _ _, Nat.le_succ 2⟩

theorem jne (reg : Byte) : Statement (.jne reg) := ⟨rfl, Nat.le_add_left _ _, Nat.le_succ 2⟩

end Sys2Proof.Laws.EncodeSize
end

