-- ==== Sys2Proof/Laws/Step.lean ====
section
/-! SUPPORT. Everything one step can do, said once. -/

namespace Sys2Proof.Machine

variable {s t : State}

/-- The window's length says where memory ends. -/
theorem memSize_le_of_fetchWindow_length (h : s.fetchWindow.length < 3) :
    s.cfg.memSize ≤ s.pc + s.fetchWindow.length := by
  by_cases h0 : s.cfg.memSize ≤ s.pc
  · omega
  by_cases h1 : s.cfg.memSize ≤ s.pc + 1
  · rw [fetchWindow_one (by omega)]
    exact h1
  by_cases h2 : s.cfg.memSize ≤ s.pc + 2
  · rw [fetchWindow_two (by omega)]
    exact h2
  · rw [fetchWindow_three (by omega)] at h
    simp at h

/-- The window's first byte is the byte at `pc`. -/
theorem memRead_pc_of_fetchWindow {b : Byte} {rest : List Byte} (h : s.fetchWindow = b :: rest) :
    s.memRead s.pc = some b := by
  by_cases h0 : s.cfg.memSize ≤ s.pc
  · rw [fetchWindow_none h0] at h
    cases h
  · rw [fetchWindow_eq, memRead_of_lt (Nat.not_le.1 h0)] at h
    simp only [Option.toList_some, List.cons_append, List.cons.injEq] at h
    rw [memRead_of_lt (Nat.not_le.1 h0), h.1]

/-- What a step that answers a next state did: an instruction completed; or a fault was raised for an operand or a next
`pc`; or the opcode byte is in no row of the map, and the policy's fault or skip followed. -/
theorem step_cases (h : step s = .next t) :
    s.status = .running ∧
      ((∃ i rest, decode s.fetchWindow = .ok i rest ∧ Effect s i t) ∨ RaisedFrom s t ∨
        ∃ op, s.memRead s.pc = some op ∧ Opcode.ofByte? op = none ∧
          ((s.cfg.unknownOpcode = .fault ∧ t = s.raised .unknownOpcode op.toNat) ∨
            (s.cfg.unknownOpcode = .skip ∧ s.pc + 1 < s.cfg.memSize ∧ t = s.setPc (s.pc + 1)))) := by
  have hr : s.status = .running := by
    by_contra hr
    rw [step_of_not_running hr] at h
    cases h
  refine ⟨hr, ?_⟩
  rw [step_of_running hr] at h
  cases hd : decode s.fetchWindow with
  | ok i rest =>
    rw [hd] at h
    obtain h | h := exec_cases h
    · exact .inl ⟨i, rest, rfl, h⟩
    · exact .inr (.inl h)
  | unknownOpcode op =>
    rw [hd] at h
    obtain ⟨rest, hw, ho⟩ := decode_eq_unknown hd
    have hm := memRead_pc_of_fetchWindow hw
    cases hp : s.cfg.unknownOpcode with
    | fault =>
      simp only [unknownOpcodeStep, hp] at h
      cases h
      exact .inr (.inr ⟨op, hm, ho, .inl ⟨rfl, rfl⟩⟩)
    | skip =>
      simp only [unknownOpcodeStep, hp] at h
      obtain ⟨hn, rfl⟩ | ⟨hn, rfl⟩ := commit_cases h
      · exact .inr (.inr ⟨op, hm, ho, .inr ⟨rfl, hn, rfl⟩⟩)
      · exact .inr (.inl (.inl ⟨_, hn, rfl⟩))
  | truncated k =>
    rw [hd] at h
    cases h
    obtain ⟨rfl, hk⟩ := decode_eq_truncated hd
    exact .inr (.inl (.inl ⟨_, memSize_le_of_fetchWindow_length hk, rfl⟩))

end Sys2Proof.Machine
end

