-- ==== Sys2Proof/Tests/Slice0.lean ====
section
/-! SUPPORT. Tests and witnesses.

Every expected result of a test is a vector V<n> or example of spec/95_test_vectors.md, or an encoding of
spec/30_encoding.md R58 written out by hand. The witnesses show, for each statement of
Certificates/Slice0/Obligations.lean that has hypotheses, a concrete state and operands that meet them, clause by clause
and at the boundary of each clause's range. -/

namespace Sys2Proof.Tests

open Sys2Proof.Machine

/-! ### Helpers -/

/-- A Running core of this hardware with these bytes at `a`, which is also its `pc`. -/
def atPc (a : Nat) (bytes : List Byte) : State :=
  { State.reset with status := .running, pc := a, mem := Memory.writeBytes Config.parity [] a bytes }

/-- The same with 128 bytes of memory (V74, V88). -/
def atPc128 (a : Nat) (bytes : List Byte) : State :=
  { atPc a bytes with cfg := { Config.parity with memSize := 128 } }

/-- The same under the policy Skip (V95-V97). -/
def atPcSkip (a : Nat) (bytes : List Byte) : State :=
  { atPc a bytes with cfg := { Config.parity with unknownOpcode := .skip } }

/-- The state after a step that answers one. -/
def after : Result → Option State
  | .next s => some s
  | .fault _ => none
  | .refused _ => none

/-- The fault record after a step. -/
def faultAfter (r : Result) : Option FaultRecord := (after r).bind State.fault

/-- The error a host operation answered. -/
def errorOf {α : Type} : Except HostError α → Option HostError
  | .ok _ => none
  | .error e => some e

/-! ### Decoding: words written out from the opcode map, R58, and the formats, R55 -/

theorem test_decode_halt : decode [0b00000001#8] = .ok .halt [] := by decide
theorem test_decode_ldi : decode [0b10000010#8, 0#8, 0b00001000#8] = .ok (.ldi 0 8) [] := by decide
theorem test_decode_prn : decode [0b01000111#8, 0b00000111#8] = .ok (.prn 7) [] := by decide
theorem test_decode_mul : decode [0b10100010#8, 0b00000001#8, 0b00000010#8] = .ok (.mul 1 2) [] := by decide
theorem test_decode_jmp : decode [0b01010100#8, 0b00000110#8] = .ok (.jmp 6) [] := by decide
theorem test_decode_cmp : decode [0b10100111#8, 0b00000100#8, 0b00000101#8] = .ok (.cmp 4 5) [] := by decide
theorem test_decode_jeq : decode [0b01010101#8, 0b00000010#8] = .ok (.jeq 2) [] := by decide
theorem test_decode_jne : decode [0b01010110#8, 0b00000011#8] = .ok (.jne 3) [] := by decide

/-- R60, V90-V93, V98: the bytes that other machines use for ADD and SUB are unknown here. -/
theorem test_decode_unknown :
    [0x00#8, 0xA0#8, 0xA1#8, 0xFF#8, 0x81#8].map (fun b => decode [b]) =
      [.unknownOpcode 0x00, .unknownOpcode 0xA0, .unknownOpcode 0xA1, .unknownOpcode 0xFF, .unknownOpcode 0x81] := by
  decide

/-- The opcode table's bit numbering: the second byte is bits 15..8, the third bits 23..16. -/
theorem test_decode_table_words :
    decodeTableWord 24 0x080082 = some (.ldi 0 8) ∧ decodeTableWord 8 0x0882 = some (.ldi 0 0) ∧
      decodeTableWord 8 0x00 = none := by decide

/-! ### Well-formedness: an ill-formed term for each check -/

theorem test_wf_refuses_each_bad_register :
    [Instr.ldi 8 0, .prn 8, .mul 8 0, .mul 0 8, .jmp 255, .cmp 8 0, .cmp 0 8, .jeq 9, .jne 8].map Instr.wf =
      List.replicate 9 false := by decide

theorem test_wf_accepts_every_register_and_immediate :
    [Instr.halt, .ldi 7 255, .prn 7, .mul 7 0, .jmp 7, .cmp 0 7, .jeq 7, .jne 0].map Instr.wf =
      List.replicate 8 true := by decide

/-! ### One step of each instruction -/

/-- V2. -/
theorem test_halt_at_last_address :
    (after (step (atPc 255 [0x01#8]))).map (fun s => (s.status, s.pc)) = some (.halted, 255) := by decide

/-- V12: R7 is an ordinary register. -/
theorem test_ldi_r7 :
    (after (step (atPc 0 [0x82#8, 0x07#8, 0x10#8]))).map (fun s => (s.getReg 7, s.pc)) = some (0x10#8, 3) := by decide

/-- V16: a next `pc` of 256 is a precise fault. -/
theorem test_ldi_at_end :
    (after (step (atPc 253 [0x82#8, 0x07#8, 0x2A#8]))).map (fun s => (s.getReg 7, s.fault, s.pc)) =
      some (0xF4#8, some ⟨.outOfBoundsMemory, 253, 256⟩, 253) := by decide

/-- V21. -/
theorem test_prn_r7 :
    (after (step (atPc 0 [0x47#8, 0x07#8]))).map (fun s => (s.out, s.pc)) = some ([0xF4#8], 2) := by decide

/-- V23: the Emit of a faulting step is not committed. -/
theorem test_prn_at_end :
    (after (step (atPc 254 [0x47#8, 0x07#8]))).map (fun s => (s.out, s.fault)) =
      some ([], some ⟨.outOfBoundsMemory, 254, 256⟩) := by decide

/-- V35: 20 * 13 = 260. -/
theorem test_mul_wraps :
    (after (step (((atPc 0 [0xA2#8, 0#8, 1#8]).setReg 0 20).setReg 1 13))).map (fun s => (s.getReg 0, s.getReg 1)) =
      some (4#8, 13#8) := by decide

/-- V42: MUL writes no flag. -/
theorem test_mul_keeps_flags :
    (after (step ((((atPc 0 [0xA2#8, 1#8, 2#8]).setReg 1 6).setReg 2 7).setFl 1))).map
      (fun s => (s.getReg 1, s.getReg 2, s.fl)) = some (42#8, 7#8, 1#8) := by decide

/-- V63: unsigned, 0 < 255. -/
theorem test_cmp_unsigned :
    (after (step (((atPc 0 [0xA7#8, 0#8, 1#8]).setReg 0 0).setReg 1 255))).map (fun s => (s.fl, s.pc)) =
      some (0b010#8, 3) := by decide

/-- V66: the old bit is cleared, not ORed. -/
theorem test_cmp_clears :
    (after (step ((((atPc 0 [0xA7#8, 0#8, 1#8]).setReg 0 1).setReg 1 2).setFl 0b100))).map State.fl =
      some 0b010#8 := by decide

/-- V75: no fall-through address is checked. -/
theorem test_jmp_at_end :
    (after (step ((atPc 254 [0x54#8, 1#8]).setReg 1 3))).map (fun s => (s.pc, s.status)) = some (3, .running) := by decide

/-- V74: a target outside a memory of 128 bytes. -/
theorem test_jmp_outside_memory :
    (after (step ((atPc128 0 [0x54#8, 1#8]).setReg 1 200))).map (fun s => (s.pc, s.fault)) =
      some (0, some ⟨.outOfBoundsMemory, 0, 200⟩) := by decide

/-- V81: taken when E is set. -/
theorem test_jeq_taken :
    (after (step (((atPc 0x10 [0x55#8, 2#8]).setReg 2 0x40).setFl 0b001))).map State.pc = some 0x40 := by decide

/-- V84: the register operand of a JEQ that is not taken is checked. -/
theorem test_jeq_checks_register_untaken :
    faultAfter (step (atPc 0 [0x55#8, 9#8])) = some ⟨.outOfBoundsRegister, 0, 9⟩ := by decide

/-- V80: FL = 0 is not taken. -/
theorem test_jne_before_any_cmp :
    (after (step ((atPc 0x10 [0x56#8, 2#8]).setReg 2 0x40))).map State.pc = some 0x12 := by decide

/-- V82, V83. -/
theorem test_jne_taken :
    [0b010#8, 0b100#8].map
      (fun fl => (after (step (((atPc 0x10 [0x56#8, 2#8]).setReg 2 0x40).setFl fl))).map State.pc) =
      [some 0x40, some 0x40] := by decide

/-! ### Unknown opcodes and the order of faults -/

/-- V94: no operand byte is read. -/
theorem test_unknown_at_last_address :
    faultAfter (step (atPc 255 [0xC3#8])) = some ⟨.unknownOpcode, 255, 0xC3⟩ := by decide

/-- V95, V96. -/
theorem test_skip :
    (after (step (atPcSkip 0 [0x00#8]))).map (fun s => (s.pc, s.status)) = some (1, .running) ∧
      faultAfter (step (atPcSkip 255 [0x00#8])) = some ⟨.outOfBoundsMemory, 255, 256⟩ := by decide

/-- V17, V18, V100, V101, V102. -/
theorem test_fault_order :
    faultAfter (step (atPc 254 [0x82#8, 1#8])) = some ⟨.outOfBoundsMemory, 254, 256⟩ ∧
      faultAfter (step (atPc 255 [0x82#8])) = some ⟨.outOfBoundsMemory, 255, 256⟩ ∧
      faultAfter (step (atPc 254 [0xA2#8, 9#8])) = some ⟨.outOfBoundsMemory, 254, 256⟩ ∧
      faultAfter (step (atPc 0 [0xA7#8, 8#8, 9#8])) = some ⟨.outOfBoundsRegister, 0, 8⟩ ∧
      faultAfter (step (atPc 253 [0x82#8, 8#8, 1#8])) = some ⟨.outOfBoundsRegister, 253, 8⟩ := by decide

/-! ### Reset, the host's port, the ALU's interface and the text forms -/

/-- V130. -/
theorem test_reset :
    (State.reset.pc, State.reset.fl, State.reset.getReg 7, State.reset.status, State.reset.fault, State.reset.out) =
      (0, 0#8, 0xF4#8, .idle, none, []) ∧ State.reset.cfg.memSize = 256 ∧
      State.reset.cfg.unknownOpcode = .fault := by decide

/-- A reset core with four bytes of memory. -/
def reset4 : State := State.resetWith { Config.parity with memSize := 4 }

/-- V115, V114, V116 (at a memory of four bytes), V117, V112. -/
theorem test_host_port_refuses :
    errorOf (hostWrite 256 256 State.reset) = some (.outOfBounds 256) ∧
      errorOf (hostWrite 0 256 State.reset) = some (.invalidValue 256) ∧
      errorOf (hostLoad [0, 0, 0, 0, 0] reset4) = some (.outOfBounds 5) ∧
      errorOf (hostLoad [1, 300] State.reset) = some (.invalidValue 300) ∧
      errorOf (hostRead 256 State.reset) = some (.outOfBounds 256) := by decide

/-- V110, V111; and writing the reset contents back leaves the canonical memory of reset. -/
theorem test_host_write_then_read :
    ((hostWrite 10 7 State.reset).toOption.bind fun s => (hostRead 10 s).toOption) = some 7#8 ∧
      ((hostWrite 10 7 State.reset).toOption.bind fun s => (hostWrite 10 0 s).toOption) = some State.reset := by decide

/-- V46, V49, V52, V53. -/
theorem test_alu_interface :
    let s := (State.reset.setReg 0 255).setReg 1 1
    let t := (State.reset.setReg 0 3).setReg 1 5
    let u := (State.reset.setReg 0 255).setReg 1 255
    ((aluInterface "ADD" 0 1 s).toOption.map fun x => x.getReg 0) = some 0#8 ∧
      ((aluInterface "SUB" 0 1 t).toOption.map fun x => x.getReg 0) = some 254#8 ∧
      ((aluInterface "MUL" 0 1 u).toOption.map fun x => x.getReg 0) = some 1#8 ∧
      errorOf (aluInterface "DIV" 0 1 s) = some (.unsupportedOperation "DIV") := by decide

/-- V143, V144, V146, V147. -/
theorem test_loader_lines :
    errorOf (parseProgram ['1', '0', '0', '0', '0', '0', '0', '0', '0']) = some (.invalidValue 256) ∧
      (parseProgram ['0', '0', '0', '0', '0', '0', '0', '0', '1']).toOption = some [1#8] ∧
      errorOf (parseProgram ['0', 'b', '1', '0', '1']) = some (.malformedInstruction ['0', 'b', '1', '0', '1']) ∧
      (parseProgram ['1', '0', '1', '0', ' ', '#', ' ', 'x', ' ', '#', ' ', 'y']).toOption = some [0x0A#8] := by decide

/-- V19, V20, V21: the host's lines. -/
theorem test_render : renderOutput [0#8, 255#8, 244#8] = ['0', '\n', '2', '5', '5', '\n', '2', '4', '4', '\n'] := by decide

/-- R63, with the bytes of V34 and V10: a label as an LDI value, and an operand list. -/
theorem test_assemble :
    (assemble "LDI R0, end\nend: MUL r0,R1 # x\n\nHALT".toList).toOption =
      some [0x82#8, 0#8, 3#8, 0xA2#8, 0#8, 1#8, 0x01#8] := by decide

/-! ### Witnesses: the hypotheses of the statements about `exec` -/

theorem witness_LdiWritesImmediate :
    (7#8).toNat = (7 : Reg).val ∧ (atPc 252 []).pc + 3 < (atPc 252 []).cfg.memSize ∧ 8 ≤ (8#8 : Byte).toNat ∧
      (7#8 : Byte).toNat < 8 ∧ (atPc 253 []).cfg.memSize ≤ (atPc 253 []).pc + 3 := by decide

theorem witness_PrnEmitsRegister :
    (7#8).toNat = (7 : Reg).val ∧ (atPc 253 []).pc + 2 < (atPc 253 []).cfg.memSize ∧ 8 ≤ (8#8 : Byte).toNat ∧
      (7#8 : Byte).toNat < 8 ∧ (atPc 254 []).cfg.memSize ≤ (atPc 254 []).pc + 2 := by decide

theorem witness_MulWritesProduct :
    (0#8).toNat = (0 : Reg).val ∧ (7#8).toNat = (7 : Reg).val ∧ (atPc 252 []).pc + 3 < (atPc 252 []).cfg.memSize ∧
      8 ≤ (8#8 : Byte).toNat ∧ (7#8 : Byte).toNat < 8 ∧ (atPc 253 []).cfg.memSize ≤ (atPc 253 []).pc + 3 := by decide

theorem witness_CmpWritesComparison :
    (7#8).toNat = (7 : Reg).val ∧ (0#8).toNat = (0 : Reg).val ∧ (atPc 252 []).pc + 3 < (atPc 252 []).cfg.memSize ∧
      8 ≤ (255#8 : Byte).toNat ∧ (7#8 : Byte).toNat < 8 ∧ (atPc 253 []).cfg.memSize ≤ (atPc 253 []).pc + 3 := by decide

/-- The boundary targets 127 and 128 of a memory of 128 bytes. -/
theorem witness_JmpGoesToRegister :
    let s := ((atPc128 0 []).setReg 1 127).setReg 2 128
    (1#8).toNat = (1 : Reg).val ∧ (s.getReg 1).toNat < s.cfg.memSize ∧ 8 ≤ (8#8 : Byte).toNat ∧
      (2#8).toNat = (2 : Reg).val ∧ s.cfg.memSize ≤ (s.getReg 2).toNat := by decide

theorem witness_JeqJumpsOnEqual :
    let s := (((atPc128 126 []).setReg 1 127).setReg 2 128).setFl 0b001
    let t := (atPc 253 []).setFl 0b110
    (1#8).toNat = (1 : Reg).val ∧ s.fl[0] = true ∧ (s.getReg 1).toNat < s.cfg.memSize ∧
      (7#8 : Byte).toNat < 8 ∧ t.fl[0] = false ∧ t.pc + 2 < t.cfg.memSize ∧ 8 ≤ (8#8 : Byte).toNat ∧
      (2#8).toNat = (2 : Reg).val ∧ s.cfg.memSize ≤ (s.getReg 2).toNat ∧
      (s.setFl 0).fl[0] = false ∧ s.cfg.memSize ≤ s.pc + 2 := by decide

theorem witness_JneJumpsOnLessOrGreater :
    let s := (((atPc128 126 []).setReg 1 127).setReg 2 128).setFl 0b100
    let t := (atPc 253 []).setFl 0b001
    (1#8).toNat = (1 : Reg).val ∧ (s.fl[1] = true ∨ s.fl[2] = true) ∧ (s.getReg 1).toNat < s.cfg.memSize ∧
      (7#8 : Byte).toNat < 8 ∧ t.fl[1] = false ∧ t.fl[2] = false ∧ t.pc + 2 < t.cfg.memSize ∧
      8 ≤ (8#8 : Byte).toNat ∧ (2#8).toNat = (2 : Reg).val ∧ s.cfg.memSize ≤ (s.getReg 2).toNat ∧
      (s.setFl 0).fl[1] = false ∧ (s.setFl 0).fl[2] = false ∧ s.cfg.memSize ≤ s.pc + 2 := by decide

/-! ### Witnesses: steps from bytes, each clause at the end of memory -/

/-- What every statement about a step from bytes assumes of the byte at `pc`, and a missing first operand byte. -/
def startsAt (op : Byte) (s : State) : Bool := decide (s.status = .running) && decide (s.memRead s.pc = some op)

theorem witness_StepOfHaltBytes : startsAt 0b00000001 (atPc 255 [0x01#8]) = true := by decide

/-- The clauses of a three-byte instruction: an operand byte missing at 256 from 255 and from 254; both present with a
register byte of 8, first or second; register bytes 7 with the next `pc` outside memory (253) and inside (252). -/
def threeByteClauses (op : Byte) : Bool :=
  startsAt op (atPc 255 [op]) && decide ((atPc 255 [op]).memRead 256 = none) &&
    startsAt op (atPc 254 [op, 7#8]) && decide ((atPc 254 [op, 7#8]).memRead 255 = some 7#8) &&
    decide ((atPc 254 [op, 7#8]).memRead 256 = none) &&
    [(253, 8#8, 7#8), (253, 7#8, 8#8), (253, 7#8, 7#8), (252, 7#8, 7#8)].all fun (a, b1, b2) =>
      let s := atPc a [op, b1, b2]
      startsAt op s && decide (s.memRead (a + 1) = some b1) && decide (s.memRead (a + 2) = some b2)

/-- What the clauses say of the register bytes and of the next `pc`. -/
theorem three_byte_ranges :
    8 ≤ (8#8 : Byte).toNat ∧ (7#8 : Byte).toNat < 8 ∧ (7#8 : Byte).toNat = (7 : Reg).val ∧
      (atPc 253 []).cfg.memSize ≤ (atPc 253 []).pc + 3 ∧ (atPc 252 []).pc + 3 < (atPc 252 []).cfg.memSize := by decide

theorem witness_StepOfLdiBytes : threeByteClauses 0b10000010#8 = true := by decide
theorem witness_StepOfMulBytes : threeByteClauses 0b10100010#8 = true := by decide

/-- CMP's three outcomes as well: registers equal, less and greater, each followed by another instruction. -/
theorem witness_StepOfCmpBytes :
    threeByteClauses 0b10100111#8 = true ∧ State.reset.getReg 0 = State.reset.getReg 1 ∧
      (State.reset.getReg 0).toNat < (State.reset.getReg 7).toNat ∧
      ∃ t u, step (atPc 252 [0xA7#8, 7#8, 7#8]) = .next t ∧ exec (.jeq 7) t = .next u :=
  ⟨by decide, by decide, by decide, ⟨_, _, rfl, rfl⟩⟩

/-- The clauses of a two-byte instruction: the operand byte missing at 256; present with a register byte of 8; a
register byte of 7 with `a + 2` outside memory (254) and inside (253). -/
def twoByteClauses (op : Byte) : Bool :=
  startsAt op (atPc 255 [op]) && decide ((atPc 255 [op]).memRead 256 = none) &&
    [(254, 8#8), (254, 7#8), (253, 7#8)].all fun (a, b1) =>
      let s := atPc a [op, b1]
      startsAt op s && decide (s.memRead (a + 1) = some b1)

theorem two_byte_ranges :
    8 ≤ (8#8 : Byte).toNat ∧ (7#8 : Byte).toNat = (7 : Reg).val ∧
      (atPc 254 []).cfg.memSize ≤ (atPc 254 []).pc + 2 ∧ (atPc 253 []).pc + 2 < (atPc 253 []).cfg.memSize := by decide

theorem witness_StepOfPrnBytes : twoByteClauses 0b01000111#8 = true := by decide

/-- JMP's targets at the two sides of a memory of 128 bytes. -/
theorem witness_StepOfJmpBytes :
    let s := (atPc128 0 [0x54#8, 1#8]).setReg 1 127
    let t := (atPc128 0 [0x54#8, 1#8]).setReg 1 128
    twoByteClauses 0b01010100#8 = true ∧ startsAt 0x54 s = true ∧ s.memRead 1 = some 1#8 ∧
      (s.getReg 1).toNat < s.cfg.memSize ∧ startsAt 0x54 t = true ∧ t.cfg.memSize ≤ (t.getReg 1).toNat := by decide

/-- FL = 0 is not taken; the flags of an equal comparison are; a target of 128 is outside a memory of 128 bytes. -/
theorem witness_StepOfJeqBytes :
    let s := (((atPc128 0 [0x55#8, 1#8]).setReg 1 127).setReg 2 128).setFl (compareFlags 5 5)
    twoByteClauses 0b01010101#8 = true ∧ startsAt 0x55 s = true ∧ s.memRead 1 = some 1#8 ∧ s.fl[0] = true ∧
      (s.getReg 1).toNat < s.cfg.memSize ∧ s.cfg.memSize ≤ (s.getReg 2).toNat := by decide

/-- FL = 0 is not taken; the flags of an unequal comparison are; a target of 128 is outside a memory of 128 bytes. -/
theorem witness_StepOfJneBytes :
    let s := (((atPc128 0 [0x56#8, 1#8]).setReg 1 127).setReg 2 128).setFl (compareFlags 5 3)
    twoByteClauses 0b01010110#8 = true ∧ startsAt 0x56 s = true ∧ s.memRead 1 = some 1#8 ∧ s.fl[2] = true ∧
      (s.getReg 1).toNat < s.cfg.memSize ∧ s.cfg.memSize ≤ (s.getReg 2).toNat := by decide

/-! ### Witnesses: frames, encoding, one step -/

theorem witness_LdiAndMulFrame :
    (∃ t, exec (.ldi 7 1) (atPc 0 []) = .next t) ∧ ∃ t, exec (.mul 0 7) (atPc 0 []) = .next t := ⟨⟨_, rfl⟩, ⟨_, rfl⟩⟩

theorem witness_CmpAndPrnFrame :
    (∃ t, exec (.cmp 0 7) (atPc 0 []) = .next t) ∧ ∃ t, exec (.prn 7) (atPc 0 []) = .next t := ⟨⟨_, rfl⟩, ⟨_, rfl⟩⟩

theorem witness_HaltAndJumpsFrame :
    (∃ t, exec .halt (atPc 0 []) = .next t) ∧ (∃ t, exec (.jmp 7) (atPc 0 []) = .next t) ∧
      (∃ t, exec (.jeq 7) (atPc 0 []) = .next t) ∧ ∃ t, exec (.jne 7) (atPc 0 []) = .next t :=
  ⟨⟨_, rfl⟩, ⟨_, rfl⟩, ⟨_, rfl⟩, ⟨_, rfl⟩⟩

theorem witness_DecodedBytesAreTheEncoding : decode [0x82#8, 8#8, 255#8, 1#8] = .ok (.ldi 8 255) [1#8] := by decide

theorem witness_StepRunsDecodedInstruction :
    (atPc 254 [0x54#8, 1#8]).status = .running ∧
      decode (atPc 254 [0x54#8, 1#8]).fetchWindow = .ok (.jmp 1) [] := by decide

theorem witness_StepRunsEncodedInstruction :
    (atPc 253 [0x82#8, 7#8, 255#8]).status = .running ∧
      ∀ k, k < 3 → (atPc 253 [0x82#8, 7#8, 255#8]).memRead (253 + k) = (encode (.ldi 7 255))[k]? := by decide

theorem witness_UnknownOpcodeFaultsOrSkips :
    startsAt 0xA0 (atPc 0 [0xA0#8]) = true ∧ 0xA0#8 ∉ opmapBytes ∧ (atPc 0 []).cfg.unknownOpcode = .fault ∧
      startsAt 0xFF (atPcSkip 254 [0xFF#8]) = true ∧ 0xFF#8 ∉ opmapBytes ∧
      (atPcSkip 254 [0xFF#8]).cfg.unknownOpcode = .skip ∧ (atPcSkip 254 []).pc + 1 < (atPcSkip 254 []).cfg.memSize ∧
      startsAt 0xFF (atPcSkip 255 [0xFF#8]) = true ∧ (atPcSkip 255 []).cfg.memSize ≤ (atPcSkip 255 []).pc + 1 := by decide

theorem witness_StepHasOneOfThreeOutcomes :
    (atPc 0 []).status = .running ∧ State.reset.status ≠ .running := by decide

theorem witness_FaultingStepIsPrecise : ∃ t, step (atPc 255 [0x82#8]) = .next t ∧ t.status = .faulted := ⟨_, rfl, rfl⟩

/-- A step that faults, and one that does not. -/
theorem witness_ReportedFaultIsFirstThatApplies :
    (atPc 254 [0xA2#8, 9#8]).pc < (atPc 254 []).cfg.memSize ∧ (atPc 254 [0xA2#8, 9#8]).fault = none ∧
      (∃ t, step (atPc 254 [0xA2#8, 9#8]) = .next t ∧ t.status = .faulted) ∧
      ∃ t, step (atPc 0 [0x01#8]) = .next t ∧ t.status = .halted :=
  ⟨by decide, rfl, ⟨_, rfl, rfl⟩, ⟨_, rfl, rfl⟩⟩

theorem witness_StepIsThePseudocode : (atPc 0 [0x01#8]).status = .running := rfl

theorem witness_NextPcIsInMemory :
    (atPc 252 [0x82#8, 7#8, 7#8]).pc < (atPc 252 []).cfg.memSize ∧
      ∃ t, step (atPc 252 [0x82#8, 7#8, 7#8]) = .next t ∧ t.pc = 255 := ⟨by decide, ⟨_, rfl, rfl⟩⟩

theorem witness_TakenJumpsCompleteAt256 :
    (atPc 255 []).cfg.memSize = 256 ∧ (7#8 : Byte).toNat = (7 : Reg).val ∧ ((atPc 255 []).setFl 0b001).fl[0] = true ∧
      ((atPc 255 []).setFl 0b010).fl[1] = true ∧ ((atPc 255 []).setFl 0b100).fl[2] = true := by decide

/-- A Running state that meets the invariant and has a step. -/
theorem running_inv : (atPc 0 [0x82#8, 7#8, 7#8]).Inv :=
  ⟨by decide, by decide, by decide, .inl rfl, by decide, nofun, nofun⟩

theorem witness_StepKeepsInvariant :
    (atPc 0 [0x82#8, 7#8, 7#8]).Inv ∧ ∃ t, step (atPc 0 [0x82#8, 7#8, 7#8]) = .next t := ⟨running_inv, ⟨_, rfl⟩⟩

/-- The smallest memory that a configuration may have. -/
theorem witness_InvariantAtReset : Config.wf { Config.parity with memSize := 1 } := by decide

/-! ### Witnesses: flags, ALU, memory, output -/

/-- Another instruction than CMP; a CMP that faults; a CMP that completes. -/
theorem witness_FlagsAreWrittenByCmpOnly :
    (∃ t, exec (.mul 0 7) (atPc 0 []) = .next t) ∧
      (exec (.cmp 8 0) (atPc 0 []) = .next ((atPc 0 []).raised .outOfBoundsRegister 8)) ∧
      (∃ t, exec (.cmp 0 7) (atPc 0 []) = .next t ∧ ∀ kind detail, t ≠ (atPc 0 []).raised kind detail) ∧
      ∃ v, step (atPc 0 [0xA7#8]) = .next v ∧ v.fl = 1#8 :=
  ⟨⟨_, rfl⟩, rfl, ⟨_, rfl, fun _ _ h => nomatch congrArg State.status h⟩, ⟨_, rfl, rfl⟩⟩

theorem witness_CmpDecidesTheNextJump :
    (0#8 : Byte).toNat = (0 : Reg).val ∧ (7#8 : Byte).toNat = (7 : Reg).val ∧
      (atPc 250 []).pc + 5 < (atPc 250 []).cfg.memSize ∧
      ((atPc 250 []).getReg 7).toNat < (atPc 250 []).cfg.memSize := by decide

theorem witness_AluResultsAreModulo256 :
    (State.reset.getReg 0).toNat ≤ (State.reset.getReg 0).toNat ∧
      (State.reset.getReg 0).toNat < (State.reset.getReg 7).toNat := by decide

theorem witness_UnrecognisedAluOperationFails : "DIV" ∉ ["ADD", "SUB", "MUL"] := by decide

theorem witness_CoreReadsMemoryOnlyByFetch :
    (∃ t, step (atPc 0 [0x47#8, 7#8]) = .next t) ∧ ∃ t, exec (.prn 7) (atPc 0 []) = .next t := ⟨⟨_, rfl⟩, ⟨_, rfl⟩⟩

/-- PRN that completes, PRN that faults, another instruction, and a step from PRN's byte. -/
theorem witness_OutputGrowsByPrnOnly :
    (∃ t, exec (.prn 7) (atPc 0 []) = .next t) ∧ (∃ t, exec (.prn 8) (atPc 0 []) = .next t) ∧
      (∃ t, exec (.ldi 7 0) (atPc 0 []) = .next t) ∧ ∃ t, step (atPc 0 [0x47#8, 7#8]) = .next t ∧ t.out = [0xF4#8] :=
  ⟨⟨_, rfl⟩, ⟨_, rfl⟩, ⟨_, rfl⟩, ⟨_, rfl, rfl⟩⟩

theorem witness_RegInitMattersAtResetOnly : ∃ t, step (atPc 0 [0x82#8, 7#8, 7#8]) = .next t := ⟨_, rfl⟩

theorem witness_CanonicalMemoriesAreExtensional :
    Memory.wf Config.parity [(0, 1#8), (255, 2#8)] = true ∧
      ∀ a, a < 256 → Memory.read Config.parity [(0, 1#8), (255, 2#8)] a =
        Memory.read Config.parity [(0, 1#8), (255, 2#8)] a := ⟨by decide, fun _ _ => rfl⟩

/-! ### Witnesses: the host -/

theorem witness_ResetSetsEveryResetValue :
    State.reset.status ≠ .running ∧ (atPc 0 []).status = .running ∧ 0 < State.reset.cfg.memSize ∧ 6 < 7 ∧
      ((atPc 0 []).setStatus .halted).status = .halted ∧ ((atPc 0 []).raised .unknownOpcode 0).status = .faulted ∧
      State.reset.status ≠ ((atPc 0 []).setStatus .halted).status := by decide

/-- Addresses -1, 256 and 255; values -1, 256 and 255. -/
theorem witness_HostReadAndWriteOneByte :
    State.reset.status ≠ .running ∧ Memory.wf State.reset.cfg State.reset.mem = true ∧
      ¬ (0 ≤ (-1 : Int) ∧ (-1 : Int) < State.reset.cfg.memSize) ∧
      ¬ (0 ≤ (256 : Int) ∧ (256 : Int) < State.reset.cfg.memSize) ∧ 255 < State.reset.cfg.memSize ∧
      ¬ (0 ≤ (-1 : Int) ∧ (-1 : Int) ≤ 255) ∧ ¬ (0 ≤ (256 : Int) ∧ (256 : Int) ≤ 255) ∧ (254 : Nat) ≠ 255 := by decide

/-- Images one byte too long and exactly as long as memory, and one with a bad value. -/
theorem witness_HostLoadPlacesTheImage :
    reset4.status ≠ .running ∧ Memory.wf reset4.cfg reset4.mem = true ∧
      reset4.cfg.memSize < ([0, 0, 0, 0, 0] : List Int).length ∧
      ([1, 2, 3] ++ 300 :: [] : List Int).length ≤ reset4.cfg.memSize ∧
      (∀ y ∈ ([1, 2, 3] : List Int), 0 ≤ y ∧ y ≤ 255) ∧ ¬ (0 ≤ (300 : Int) ∧ (300 : Int) ≤ 255) ∧
      ([0#8, 1#8, 2#8, 255#8] : List Byte).length ≤ reset4.cfg.memSize := by decide

/-- The reset state with HALT at 0 meets the invariant. -/
theorem idle_inv : ({ atPc 0 [0x01#8] with status := .idle } : State).Inv :=
  ⟨by decide, by decide, by decide, .inl rfl, by decide, nofun, nofun⟩

theorem witness_HostOperationsKeepInvariant :
    ({ atPc 0 [0x01#8] with status := .idle } : State).Inv ∧
      (hostWrite 255 255 { atPc 0 [0x01#8] with status := .idle }).toOption.isSome = true ∧
      (hostLoad [1] { atPc 0 [0x01#8] with status := .idle }).toOption.isSome = true ∧
      (hostReset { atPc 0 [0x01#8] with status := .idle }).toOption.isSome = true ∧
      ∃ t, hostRun 1 { atPc 0 [0x01#8] with status := .idle } = .ok (.returned t) :=
  ⟨idle_inv, by decide, by decide, by decide, ⟨_, rfl⟩⟩

theorem witness_RunEndsHaltedOrFaulted :
    ∃ t, hostRun 1 { atPc 0 [0x01#8] with status := .idle } = .ok (.returned t) ∧ t.status = .halted := ⟨_, rfl, rfl⟩

/-- A Halted core whose memory port accepts a write and a load, and a Faulted one. -/
theorem witness_StoppedCoreWaitsForReset :
    ((atPc 0 []).setStatus .halted).status = .halted ∧ ((atPc 0 []).raised .unknownOpcode 0).status = .faulted ∧
      (hostWrite 255 255 ((atPc 0 []).setStatus .halted)).toOption.isSome = true ∧
      (hostLoad [1] ((atPc 0 []).raised .unknownOpcode 0)).toOption.isSome = true := by decide

theorem witness_RunEndDoesNotDependOnFuel :
    1 ≤ 2 ∧ ∃ t, hostRun 1 { atPc 0 [0x01#8] with status := .idle } = .ok (.returned t) := ⟨by decide, ⟨_, rfl⟩⟩

/-- An image exactly as long as memory. -/
theorem witness_ProgramTextRoundTrip :
    reset4.status ≠ .running ∧ Memory.wf reset4.cfg reset4.mem = true ∧
      ([0#8, 1#8, 2#8, 255#8] : List Byte).length ≤ reset4.cfg.memSize := by decide

theorem witness_AssemblerAgreesWithEncoder : (Instr.mul 7 0).wf = true := by decide

theorem witness_OutputTextIsDecimalLines : 0#8 ∈ [0#8, 100#8] ∧ 100#8 ∈ [0#8, 100#8] ∧ 100#8 ≠ 0#8 := by decide

theorem witness_PlacedWordRunsNext :
    let s := { State.reset with pc := 253 }
    Memory.wf s.cfg s.mem = true ∧ s.pc + 2 < s.cfg.memSize ∧ decodeTableWord 24 0x080782 = some (.ldi 7 8) := by decide

end Sys2Proof.Tests
end

/-! PROOFS. What completed instructions and whole steps do to FL and to the output (R25, R31). -/

namespace Sys2Proof

/-- What the decoder reads as an instruction is that instruction's encoding, then the bytes it leaves. -/
theorem encode_append_of_decode_eq_ok {bytes rest : List Byte} {i : Instr} (h : decode bytes = .ok i rest) :
    encode i ++ rest = bytes := by
  rcases bytes with _ | ⟨op, operands⟩
  · cases h
  cases ho : Opcode.ofByte? op with
  | none =>
    rw [decode_cons_of_unknown ho] at h
    cases h
  | some o =>
    rw [decode_cons_of_known ho] at h
    obtain rfl := Opcode.byte_of_ofByte? ho
    cases o with
    | halt =>
      cases h
      rfl
    | prn | jmp | jeq | jne =>
      rcases operands with _ | ⟨b1, left⟩ <;> cases h
      rfl
    | ldi | mul | cmp =>
      rcases operands with _ | ⟨b1, _ | ⟨b2, left⟩⟩ <;> cases h
      rfl

namespace Machine

variable {s t : State} {i : Instr}

/-- The byte at `pc` is the opcode byte of the instruction decoded there. -/
theorem memRead_pc_of_decode_eq_ok {rest : List Byte} (h : decode s.fetchWindow = .ok i rest) :
    s.memRead s.pc = (encode i).head? := by
  have hw := encode_append_of_decode_eq_ok h
  cases i <;> exact memRead_pc_of_fetchWindow hw.symm

theorem RaisedFrom.exists_eq_raised (h : RaisedFrom s t) : ∃ kind detail, t = s.raised kind detail := by
  obtain ⟨d, -, rfl⟩ | ⟨b, -, rfl⟩ := h
  · exact ⟨_, _, rfl⟩
  · exact ⟨_, _, rfl⟩

/-- An instruction completes with its effect, or raises a fault. -/
theorem effect_or_raised_of_exec (h : exec i s = .next t) :
    Effect s i t ∨ ∃ kind detail, t = s.raised kind detail :=
  (exec_cases h).imp_right RaisedFrom.exists_eq_raised

/-- A step completes the instruction whose opcode byte is at `pc`, or raises a fault, or skips an unknown byte. -/
theorem effect_or_raised_or_skip_of_step (h : step s = .next t) :
    s.status = .running ∧
      ((∃ i, s.memRead s.pc = (encode i).head? ∧ Effect s i t) ∨ (∃ kind detail, t = s.raised kind detail) ∨
        t = s.setPc (s.pc + 1)) := by
  obtain ⟨hr, ⟨i, rest, hd, he⟩ | hf | ⟨op, -, -, ⟨-, rfl⟩ | ⟨-, -, rfl⟩⟩⟩ := step_cases h
  · exact ⟨hr, .inl ⟨i, memRead_pc_of_decode_eq_ok hd, he⟩⟩
  · exact ⟨hr, .inr (.inl hf.exists_eq_raised)⟩
  · exact ⟨hr, .inr (.inl ⟨_, _, rfl⟩)⟩
  · exact ⟨hr, .inr (.inr rfl)⟩

/-! ### FL (R25) -/

/-- A comparison sets exactly one of E, L and G (R91). -/
theorem compareFlags_eq_one_bit (a b : Byte) :
    compareFlags a b = 0b001#8 ∨ compareFlags a b = 0b010#8 ∨ compareFlags a b = 0b100#8 := by
  unfold compareFlags
  split
  · exact .inl rfl
  · split
    · exact .inr (.inl rfl)
    · exact .inr (.inr rfl)

/-- A completed instruction keeps FL unless it is a CMP, which keeps the status. -/
theorem Effect.fl_cases (h : Effect s i t) :
    t.fl = s.fl ∨ ∃ ba bb, i = .cmp ba bb ∧ t.status = s.status := by
  cases h with
  | cmp ha hb hn => exact .inr ⟨_, _, rfl, rfl⟩
  | _ => exact .inl rfl

/-- A completed CMP leaves one bit of FL set, whatever FL held. -/
theorem Effect.cmp_fl {ba bb : Byte} (h : Effect s (.cmp ba bb) t) :
    t.fl = 0b001#8 ∨ t.fl = 0b010#8 ∨ t.fl = 0b100#8 := by
  cases h with
  | cmp ha hb hn => exact compareFlags_eq_one_bit _ _

theorem exec_fl_of_ne_cmp (h : exec i s = .next t) (hi : ∀ ra rb, i ≠ .cmp ra rb) : t.fl = s.fl := by
  obtain he | ⟨kind, detail, rfl⟩ := effect_or_raised_of_exec h
  · obtain hfl | ⟨ba, bb, rfl, -⟩ := he.fl_cases
    · exact hfl
    · exact absurd rfl (hi ba bb)
  · rfl

theorem step_fl_cases (h : step s = .next t) :
    t.fl = s.fl ∨ (s.memRead s.pc = some 0xA7#8 ∧ t.status = .running) := by
  obtain ⟨hr, ⟨i, hop, he⟩ | ⟨kind, detail, rfl⟩ | rfl⟩ := effect_or_raised_or_skip_of_step h
  · obtain hfl | ⟨ba, bb, rfl, hst⟩ := he.fl_cases
    · exact .inl hfl
    · exact .inr ⟨hop, hst.trans hr⟩
  · exact .inl rfl
  · exact .inl rfl

/-! ### The output (R31) -/

/-- A completed instruction keeps the output, or is a PRN, which appends a register's value and keeps the status. -/
theorem Effect.out_cases (h : Effect s i t) :
    t.out = s.out ∨ ∃ b r, i = .prn b ∧ t.out = s.out ++ [s.getReg r] ∧ t.status = s.status := by
  cases h with
  | prn hb hn => exact .inr ⟨_, _, rfl, rfl, rfl⟩
  | _ => exact .inl rfl

theorem exec_out_of_ne_prn (h : exec i s = .next t) (hi : ∀ b, i ≠ .prn b) : t.out = s.out := by
  obtain he | ⟨kind, detail, rfl⟩ := effect_or_raised_of_exec h
  · obtain hout | ⟨b, r, rfl, -⟩ := he.out_cases
    · exact hout
    · exact absurd rfl (hi b)
  · rfl

theorem exec_prn_out_cases {b : Byte} (h : exec (.prn b) s = .next t) :
    (∃ r : Reg, b.toNat = r.val ∧ t.out = s.out ++ [s.getReg r] ∧ t.pc = s.pc + 2) ∨
      (t.out = s.out ∧ ∃ kind detail, t = s.raised kind detail) := by
  obtain he | ⟨kind, detail, rfl⟩ := effect_or_raised_of_exec h
  · cases he with
    | prn hb hn => exact .inl ⟨_, hb, rfl, rfl⟩
  · exact .inr ⟨rfl, kind, detail, rfl⟩

theorem step_out_cases (h : step s = .next t) :
    t.out = s.out ∨
      (s.memRead s.pc = some 0x47#8 ∧ t.status = .running ∧ ∃ r : Reg, t.out = s.out ++ [s.getReg r]) := by
  obtain ⟨hr, ⟨i, hop, he⟩ | ⟨kind, detail, rfl⟩ | rfl⟩ := effect_or_raised_or_skip_of_step h
  · obtain hout | ⟨b, r, rfl, hout, hst⟩ := he.out_cases
    · exact .inl hout
    · exact .inr ⟨hop, hst.trans hr, r, hout⟩
  · exact .inl rfl
  · exact .inl rfl

end Machine

/-- Settles O35: of the completed effects only CMP's writes FL, and a raised state keeps it. -/
theorem flagsAreWrittenByCmpOnly : Obligations.FlagsAreWrittenByCmpOnly := by
  intro i s t h
  refine ⟨Machine.exec_fl_of_ne_cmp h, ?_, ?_, fun _ _ => Machine.step_fl_cases⟩
  · rintro kind detail rfl
    rfl
  · rintro ra rb rfl hcompletes
    obtain he | ⟨kind, detail, ht⟩ := Machine.effect_or_raised_of_exec h
    · exact he.cmp_fl
    · exact absurd ht (hcompletes kind detail)

/-- Settles O41: of the completed effects only PRN's writes the output, and a raised state keeps it. -/
theorem outputGrowsByPrnOnly : Obligations.OutputGrowsByPrnOnly := by
  refine ⟨fun i s t h => ⟨Machine.exec_out_of_ne_prn h, ?_⟩, fun _ _ => Machine.step_out_cases, fun _ => rfl⟩
  rintro b rfl
  exact Machine.exec_prn_out_cases h

end Sys2Proof

/-! PROOFS. The memory's rules: no instruction or step touches it (R35), and what the host's `read`, `write` and `load`
do to it (R38-R40). -/

namespace Sys2Proof

namespace Machine

variable {s t : State} {i : Instr}

/-! ### The core and memory (R35) -/

theorem Effect.mem_eq (h : Effect s i t) : t.mem = s.mem := by
  cases h <;> rfl

theorem Effect.cfg_eq (h : Effect s i t) : t.cfg = s.cfg := by
  cases h <;> rfl

/-- A step writes neither memory nor the configuration, by which memory is read. -/
theorem step_mem_cfg (h : step s = .next t) : t.mem = s.mem ∧ t.cfg = s.cfg := by
  obtain ⟨-, ⟨i, -, he⟩ | ⟨kind, detail, rfl⟩ | rfl⟩ := effect_or_raised_or_skip_of_step h
  · exact ⟨he.mem_eq, he.cfg_eq⟩
  · exact ⟨rfl, rfl⟩
  · exact ⟨rfl, rfl⟩

/-- The same state with other memory contents. -/
def State.withMem (s : State) (m : Memory) : State := { s with mem := m }

/-- The same answer with other memory contents in its state. -/
def Result.withMem (m : Memory) : Result → Result
  | .next t => .next (t.withMem m)
  | .fault r => .fault r
  | .refused r => .refused r

/-- The end of a step does not look at memory. -/
theorem commit_withMem {w w' : State} {m : Memory} {next : Nat} (hw : w' = w.withMem m) :
    commit (s.withMem m) w' next = Result.withMem m (commit s w next) := by
  subst hw
  by_cases hn : next < s.cfg.memSize
  · rw [commit_of_lt hn, commit_of_lt (s := s.withMem m) hn]
    rfl
  · rw [commit_of_le (Nat.not_lt.1 hn), commit_of_le (s := s.withMem m) (Nat.not_lt.1 hn)]
    rfl

/-- A register operand's check does not look at memory, so it agrees with what the instruction goes on to do. -/
theorem withReg_withMem {b : Byte} {k k' : Reg → Result} {m : Memory}
    (hk : ∀ r, k' r = Result.withMem m (k r)) :
    withReg b (s.withMem m) k' = Result.withMem m (withReg b s k) := by
  by_cases hb : b.toNat < 8
  · have hr : b.toNat = (⟨b.toNat, hb⟩ : Reg).val := rfl
    rw [withReg_of_names hr, withReg_of_names hr, hk]
  · rw [withReg_of_le (Nat.not_lt.1 hb), withReg_of_le (Nat.not_lt.1 hb)]
    rfl

/-- The execute phase is the same whatever memory holds. -/
theorem exec_withMem (i : Instr) (s : State) (m : Memory) :
    exec i (s.withMem m) = Result.withMem m (exec i s) := by
  cases i with
  | halt => rfl
  | ldi | prn | jmp | jeq | jne => exact withReg_withMem fun _ => commit_withMem rfl
  | mul | cmp => exact withReg_withMem fun _ => withReg_withMem fun _ => commit_withMem rfl

/-! ### What a state with other memory contents reads -/

variable {a : Nat} {m : Memory}

theorem memRead_withMem_of_read {b : Byte} (ha : a < s.cfg.memSize) (hb : Memory.read s.cfg m a = b) :
    (s.withMem m).memRead a = some b :=
  memRead_eq_some.2 ⟨ha, hb⟩

theorem memRead_withMem_congr (h : Memory.read s.cfg m a = Memory.read s.cfg s.mem a) :
    (s.withMem m).memRead a = s.memRead a :=
  congrArg (fun b => if a < s.cfg.memSize then some b else none) h

/-! ### The host's `read` and `write` (R38, R39) -/

theorem addrOf?_eq_none {c : Config} {x : Int} : addrOf? c x = none ↔ ¬ (0 ≤ x ∧ x < c.memSize) := by
  simp [addrOf?]

theorem hostRead_of_outside {x : Int} (hs : s.status ≠ .running) (hx : ¬ (0 ≤ x ∧ x < s.cfg.memSize)) :
    hostRead x s = .error (.outOfBounds x) := by
  simp only [hostRead, whenStopped_of_not_running hs, addrOf?_eq_none.2 hx]

theorem hostRead_of_lt (hs : s.status ≠ .running) (ha : a < s.cfg.memSize) :
    hostRead a s = .ok (Memory.read s.cfg s.mem a) := by
  simp only [hostRead, whenStopped_of_not_running hs, addrOf?_eq_some.2 ⟨rfl, ha⟩]

theorem hostWrite_of_outside {x v : Int} (hs : s.status ≠ .running) (hx : ¬ (0 ≤ x ∧ x < s.cfg.memSize)) :
    hostWrite x v s = .error (.outOfBounds x) := by
  simp only [hostWrite, whenStopped_of_not_running hs, addrOf?_eq_none.2 hx]

theorem hostWrite_of_bad_value {v : Int} (hs : s.status ≠ .running) (ha : a < s.cfg.memSize)
    (hv : ¬ (0 ≤ v ∧ v ≤ 255)) : hostWrite a v s = .error (.invalidValue v) := by
  simp only [hostWrite, whenStopped_of_not_running hs, addrOf?_eq_some.2 ⟨rfl, ha⟩, byteOf?_eq_none.2 hv]

theorem hostWrite_of_lt {v : Byte} (hs : s.status ≠ .running) (ha : a < s.cfg.memSize) :
    hostWrite a v.toNat s = .ok (s.withMem (Memory.write s.cfg s.mem a v)) := by
  simp only [hostWrite, whenStopped_of_not_running hs, addrOf?_eq_some.2 ⟨rfl, ha⟩, byteOf?_toNat]
  rfl

theorem memRead_write_self {v : Byte} (hm : Memory.wf s.cfg s.mem = true) (ha : a < s.cfg.memSize) :
    (s.withMem (Memory.write s.cfg s.mem a v)).memRead a = some v :=
  memRead_withMem_of_read ha (Memory.read_write_self hm)

theorem memRead_write_ne {a' : Nat} {v : Byte} (hne : a' ≠ a) :
    (s.withMem (Memory.write s.cfg s.mem a v)).memRead a' = s.memRead a' :=
  memRead_withMem_congr (Memory.read_write_ne hne)

/-! ### The host's `load` (R40) -/

/-- The first value that is no byte is the one reported. -/
theorem bytesOf_append_cons_of_bad {pre post : List Int} {x : Int} (hpre : ∀ y ∈ pre, 0 ≤ y ∧ y ≤ 255)
    (hx : ¬ (0 ≤ x ∧ x ≤ 255)) : bytesOf (pre ++ x :: post) = .error (.invalidValue x) := by
  induction pre with
  | nil => simp only [List.nil_append, bytesOf, byteOf?_eq_none.2 hx]
  | cons y ys ih =>
    have hy : byteOf? y = some (BitVec.ofNat 8 y.toNat) := if_pos (hpre y List.mem_cons_self)
    have hys := ih fun z hz => hpre z (List.mem_cons_of_mem y hz)
    simp only [List.cons_append, bytesOf, hy, hys]

theorem hostLoad_of_too_long {xs : List Int} (hs : s.status ≠ .running) (hl : s.cfg.memSize < xs.length) :
    hostLoad xs s = .error (.outOfBounds xs.length) := by
  rw [hostLoad, whenStopped_of_not_running hs, if_pos hl]

theorem hostLoad_of_bytesOf_error {xs : List Int} {e : HostError} (hs : s.status ≠ .running)
    (hl : xs.length ≤ s.cfg.memSize) (hxs : bytesOf xs = .error e) : hostLoad xs s = .error e := by
  rw [hostLoad, whenStopped_of_not_running hs, if_neg (Nat.not_lt.2 hl), hxs]

theorem hostLoad_of_bytesOf_ok {xs : List Int} {bs : List Byte} (hs : s.status ≠ .running)
    (hl : xs.length ≤ s.cfg.memSize) (hxs : bytesOf xs = .ok bs) :
    hostLoad xs s = .ok (s.withMem (Memory.writeBytes s.cfg s.mem 0 bs)) := by
  rw [hostLoad, whenStopped_of_not_running hs, if_neg (Nat.not_lt.2 hl), hxs]
  rfl

/-- An image written from address 0 on is read back there. -/
theorem memRead_writeBytes_zero_of_lt {bs : List Byte} (hm : Memory.wf s.cfg s.mem = true)
    (hl : bs.length ≤ s.cfg.memSize) (ha : a < bs.length) :
    (s.withMem (Memory.writeBytes s.cfg s.mem 0 bs)).memRead a = bs[a]? := by
  have ha' : 0 ≤ a ∧ a < 0 + bs.length := by omega
  rw [List.getElem?_eq_getElem ha]
  refine memRead_withMem_of_read (ha.trans_le hl) ?_
  rw [Memory.read_writeBytes hm (by omega), dif_pos ha']
  rfl

/-- Past an image written from address 0 on, memory reads as before. -/
theorem memRead_writeBytes_zero_of_le {bs : List Byte} (hm : Memory.wf s.cfg s.mem = true)
    (hl : bs.length ≤ s.cfg.memSize) (ha : bs.length ≤ a) :
    (s.withMem (Memory.writeBytes s.cfg s.mem 0 bs)).memRead a = s.memRead a := by
  apply memRead_withMem_congr
  rw [Memory.read_writeBytes hm (by omega), dif_neg (by omega)]

end Machine

/-- Settles O40: no completed effect, fault or skip writes memory, and the execute phase commutes with exchanging it. -/
theorem coreReadsMemoryOnlyByFetch : Obligations.CoreReadsMemoryOnlyByFetch := by
  refine ⟨fun s t h => ?_, fun i s t m h => ?_⟩
  · obtain ⟨hmem, hcfg⟩ := Machine.step_mem_cfg h
    exact ⟨hmem, Machine.State.memRead_congr hcfg hmem⟩
  · exact (Machine.exec_withMem i s m).trans (congrArg (Machine.Result.withMem m) h)

/-- Settles O45: the address is checked before the value, and a legal write is one write to memory. -/
theorem hostReadAndWriteOneByte : Obligations.HostReadAndWriteOneByte := by
  intro s hs hm
  refine ⟨fun x hx => ⟨Machine.hostRead_of_outside hs hx, fun v => Machine.hostWrite_of_outside hs hx⟩,
    fun a ha => ⟨?_, fun v => Machine.hostWrite_of_bad_value hs ha, fun v => ?_⟩⟩
  · exact ⟨_, Machine.memRead_of_lt ha, Machine.hostRead_of_lt hs ha⟩
  · exact ⟨_, Machine.hostWrite_of_lt hs ha, rfl, Machine.memRead_write_self hm ha,
      fun a' => Machine.memRead_write_ne⟩

/-- Settles O46: the length is checked first, then the values in order, and a legal image is written from address 0. -/
theorem hostLoadPlacesTheImage : Obligations.HostLoadPlacesTheImage := by
  intro s hs hm
  refine ⟨fun xs => Machine.hostLoad_of_too_long hs, fun pre post x hl hpre hx => ?_, fun bs hl => ?_⟩
  · exact Machine.hostLoad_of_bytesOf_error hs hl (Machine.bytesOf_append_cons_of_bad hpre hx)
  · have hlen : (bs.map fun b => (b.toNat : Int)).length ≤ s.cfg.memSize := by
      rwa [List.length_map]
    exact ⟨_, Machine.hostLoad_of_bytesOf_ok hs hlen (Machine.bytesOf_map_toNat bs), rfl,
      fun k => Machine.memRead_writeBytes_zero_of_lt hm hl, fun a => Machine.memRead_writeBytes_zero_of_le hm hl⟩

end Sys2Proof

/-! PROOFS. The opcode map's rows (R58), and the loader's text format read back (R65, R66). -/

namespace Sys2Proof

/-- The opcode byte alone selects the row that reads the operand bytes (R58). -/
theorem decode_byte_cons (o : Opcode) (rest : List Byte) : decode (o.byte :: rest) = o.decodeOperands rest :=
  decode_cons_of_known (Opcode.ofByte?_byte o)

/-- Settles O20: each row's byte selects it, and the row's format reads as many operand bytes as it has. -/
theorem opcodeMapSelectsInstruction : Obligations.OpcodeMapSelectsInstruction := fun _ _ _ =>
  ⟨decode_byte_cons .halt _, decode_byte_cons .ldi _, decode_byte_cons .prn _, decode_byte_cons .mul _,
    decode_byte_cons .jmp _, decode_byte_cons .cmp _, decode_byte_cons .jeq _, decode_byte_cons .jne _⟩

namespace Machine

variable {l : List Char}

/-! ### Lines -/

/-- A line feed ends the first line. -/
theorem splitLines_append_newline (hl : '\n' ∉ l) (cs : List Char) :
    splitLines (l ++ '\n' :: cs) = l :: splitLines cs := by
  induction l with
  | nil => rfl
  | cons c l ih =>
    obtain ⟨hc, hl⟩ := not_or.1 (mt List.mem_cons.2 hl)
    simp only [List.cons_append, splitLines, Ne.symm hc, if_false, ih hl]

theorem parseLines_cons_of_byte {b : Byte} {ls : List (List Char)} {bs : List Byte} (hl : parseLine l = .ok (some b))
    (hls : parseLines ls = .ok bs) : parseLines (l :: ls) = .ok (b :: bs) := by
  simp only [parseLines, hl, hls]

/-! ### A line of binary digits (R65) -/

theorem isBinaryDigit_iff {c : Char} : isBinaryDigit c = true ↔ c = '0' ∨ c = '1' := by
  simp [isBinaryDigit]

/-- A binary digit starts no comment. -/
theorem dropComment_of_binary (hl : ∀ c ∈ l, isBinaryDigit c = true) : dropComment l = l := by
  refine List.takeWhile_eq_self_iff.2 fun c hc => ?_
  obtain rfl | rfl := isBinaryDigit_iff.1 (hl c hc) <;> decide

theorem dropWhile_isWhitespace_of_binary (hl : ∀ c ∈ l, isBinaryDigit c = true) :
    l.dropWhile Char.isWhitespace = l := by
  cases l with
  | nil => rfl
  | cons c l =>
    apply List.dropWhile_cons_of_neg
    obtain rfl | rfl := isBinaryDigit_iff.1 (hl c List.mem_cons_self) <;> decide

/-- Binary digits stand at both ends, so there is no white space to trim. -/
theorem trim_of_binary (hl : ∀ c ∈ l, isBinaryDigit c = true) : trim l = l := by
  have hrev : ∀ c ∈ l.reverse, isBinaryDigit c = true := fun c hc => hl c (List.mem_reverse.1 hc)
  rw [trim, dropWhile_isWhitespace_of_binary hl, dropWhile_isWhitespace_of_binary hrev, List.reverse_reverse]

theorem parseLine_of_binary (hne : l ≠ []) (hl : ∀ c ∈ l, isBinaryDigit c = true) (hv : binaryValue l ≤ 255) :
    parseLine l = .ok (some (BitVec.ofNat 8 (binaryValue l))) := by
  have hempty : ¬ l.isEmpty = true := fun h => hne (List.isEmpty_iff.1 h)
  rw [parseLine, dropComment_of_binary hl, trim_of_binary hl]
  exact (if_neg hempty).trans ((if_pos (List.all_eq_true.2 hl)).trans (if_pos hv))

/-! ### The digits of a byte (R66) -/

/-- The character that `binaryDigits` writes for bit `k`. -/
def bitChar (b : Byte) (k : Nat) : Char := if b.getLsbD k then '1' else '0'

theorem binaryDigits_eq (b : Byte) : binaryDigits b = (List.range 8).reverse.map (bitChar b) := rfl

theorem isBinaryDigit_bitChar (b : Byte) (k : Nat) : isBinaryDigit (bitChar b k) = true := by
  unfold bitChar
  split <;> rfl

theorem isBinaryDigit_of_mem_binaryDigits {b : Byte} : ∀ c ∈ binaryDigits b, isBinaryDigit c = true :=
  List.forall_mem_map.2 fun k _ => isBinaryDigit_bitChar b k

theorem newline_notMem_binaryDigits (b : Byte) : '\n' ∉ binaryDigits b := fun h =>
  absurd (isBinaryDigit_of_mem_binaryDigits _ h) (by decide)

theorem binaryValue_concat (cs : List Char) (c : Char) :
    binaryValue (cs ++ [c]) = 2 * binaryValue cs + if c = '1' then 1 else 0 :=
  List.foldl_concat ..

/-- A leading digit counts as often as the digits after it have combinations. -/
theorem binaryValue_cons (c : Char) (cs : List Char) :
    binaryValue (c :: cs) = 2 ^ cs.length * (if c = '1' then 1 else 0) + binaryValue cs := by
  induction cs using List.reverseRecOn with
  | nil => simp [binaryValue]
  | append_singleton cs d ih =>
    rw [← List.cons_append, binaryValue_concat, binaryValue_concat, ih, List.length_append, List.length_singleton,
      Nat.pow_succ]
    ring

/-- The digits of the `w` lowest bits, most significant first, spell the number of those bits. -/
theorem binaryValue_map_bitChar (b : Byte) (w : Nat) :
    binaryValue ((List.range w).reverse.map (bitChar b)) = b.toNat % 2 ^ w := by
  induction w with
  | zero => exact (Nat.mod_one _).symm
  | succ w ih =>
    have hbit : (if bitChar b w = '1' then 1 else 0) = b.toNat / 2 ^ w % 2 := by
      rw [← Nat.toNat_testBit, bitChar, BitVec.getLsbD]
      cases b.toNat.testBit w <;> rfl
    have hlen : ((List.range w).reverse.map (bitChar b)).length = w := by simp
    rw [List.range_succ, List.reverse_concat, List.map_cons, binaryValue_cons, ih, hbit, hlen, Nat.mod_pow_succ,
      Nat.add_comm]

theorem binaryValue_binaryDigits (b : Byte) : binaryValue (binaryDigits b) = b.toNat := by
  rw [binaryDigits_eq, binaryValue_map_bitChar, Nat.mod_eq_of_lt b.isLt]

theorem parseLine_binaryDigits (b : Byte) : parseLine (binaryDigits b) = .ok (some b) := by
  have hv : binaryValue (binaryDigits b) ≤ 255 := binaryValue_binaryDigits b ▸ Nat.le_of_lt_succ b.isLt
  rw [parseLine_of_binary (l := binaryDigits b) (List.cons_ne_nil _ _) isBinaryDigit_of_mem_binaryDigits hv,
    binaryValue_binaryDigits, BitVec.ofNat_toNat, BitVec.setWidth_eq]

theorem parseProgram_programText (bs : List Byte) : parseProgram (programText bs) = .ok bs := by
  induction bs with
  | nil => rfl
  | cons b bs ih =>
    rw [parseProgram, programText, splitLines_append_newline (newline_notMem_binaryDigits b)]
    exact parseLines_cons_of_byte (parseLine_binaryDigits b) ih

end Machine

/-- Settles O51: each line of digits parses to its byte, and `load` places the image as O46 says. -/
theorem programTextRoundTrip : Obligations.ProgramTextRoundTrip := by
  refine fun bs => ⟨Machine.parseProgram_programText bs, fun s hs hm hlen => ?_⟩
  obtain ⟨-, -, hplaced⟩ := hostLoadPlacesTheImage s hs hm
  obtain ⟨t, hload, -, himage, -⟩ := hplaced bs hlen
  exact ⟨t, hload, himage⟩

end Sys2Proof

/-! PROOFS. The faults of one step: what an unknown opcode byte does (R77, R99), that a faulting step is precise (R75),
and that it reports the first fault that applies (R76). -/

namespace Sys2Proof

namespace Machine

variable {s t w : State} {i : Instr}

/-- The rows of the opcode map have exactly the bytes of `OPMAP` (R58, R79). -/
theorem ofByte?_eq_none_iff_notMem {b : Byte} : Opcode.ofByte? b = none ↔ b ∉ opmapBytes := by
  rw [show opmapBytes = Opcode.all.map Opcode.byte from rfl]
  simp [Opcode.ofByte?]

/-- The window of a `pc` in memory begins with the byte there. -/
theorem fetchWindow_of_pc_lt (hpc : s.pc < s.cfg.memSize) :
    s.fetchWindow = Memory.read s.cfg s.mem s.pc ::
      ((s.memRead (s.pc + 1)).toList ++ (s.memRead (s.pc + 2)).toList) := by
  rw [fetchWindow_eq, memRead_of_lt hpc]
  rfl

/-! ### An unknown opcode byte (R77, R99) -/

theorem step_of_unknown_byte (hs : s.status = .running) (hpc : s.pc < s.cfg.memSize)
    (hop : Memory.read s.cfg s.mem s.pc ∉ opmapBytes) :
    step s = unknownOpcodeStep (Memory.read s.cfg s.mem s.pc) s := by
  rw [step_of_running hs, fetchWindow_of_pc_lt hpc, decode_cons_of_unknown (ofByte?_eq_none_iff_notMem.2 hop)]

theorem unknownOpcodeStep_of_fault {op : Byte} (hp : s.cfg.unknownOpcode = .fault) :
    unknownOpcodeStep op s = .next (s.raised .unknownOpcode op.toNat) := by
  simp only [unknownOpcodeStep, hp, raise_eq]

theorem unknownOpcodeStep_of_skip {op : Byte} (hp : s.cfg.unknownOpcode = .skip) :
    unknownOpcodeStep op s = commit s s (s.pc + 1) := by
  simp only [unknownOpcodeStep, hp]

/-! ### A faulting step (R75) -/

/-- A completed instruction leaves the core Running, or Halted. -/
theorem Effect.status_cases (h : Effect s i t) : t.status = s.status ∨ t.status = .halted := by
  cases h with
  | halt => exact .inr rfl
  | _ => exact .inl rfl

/-- Only raising a fault makes a core Faulted. -/
theorem exists_eq_raised_of_step_faulted (h : step s = .next t) (ht : t.status = .faulted) :
    ∃ kind detail, t = s.raised kind detail := by
  obtain ⟨hs, ⟨i, -, he⟩ | hf | rfl⟩ := effect_or_raised_or_skip_of_step h
  · obtain hst | hst := he.status_cases
    · cases ht.symm.trans (hst.trans hs)
    · cases ht.symm.trans hst
  · exact hf
  · cases ht.symm.trans hs

theorem sameButStatus_raised (s : State) (kind : FaultKind) (detail : Nat) :
    SameButStatus s (s.raised kind detail) :=
  ⟨rfl, fun _ => rfl, rfl, rfl, fun _ => rfl, rfl⟩

theorem step_raised_ne_next (s : State) (kind : FaultKind) (detail : Nat) (u : State) :
    step (s.raised kind detail) ≠ .next u := by
  rw [step_of_not_running (s := s.raised kind detail) (by simp)]
  nofun

/-! ### The first fault that applies (R76) -/

/-- R76's fault for an address that the step needs, if it is outside memory. -/
def State.memoryFault (s : State) (a : Nat) : List FaultRecord :=
  if s.cfg.memSize ≤ a then [⟨.outOfBoundsMemory, s.pc, a⟩] else []

/-- R76's fault for the register operand byte `b` at address `a`, if it is in memory and 8 or more. -/
def State.registerFault (s : State) (a : Nat) (b : Byte) : List FaultRecord :=
  if a < s.cfg.memSize ∧ 8 ≤ b.toNat then [⟨.outOfBoundsRegister, s.pc, b.toNat⟩] else []

theorem memoryFault_of_le {a : Nat} (h : s.cfg.memSize ≤ a) :
    s.memoryFault a = [⟨.outOfBoundsMemory, s.pc, a⟩] :=
  if_pos h

theorem memoryFault_of_lt {a : Nat} (h : a < s.cfg.memSize) : s.memoryFault a = [] := if_neg (Nat.not_le.2 h)

theorem registerFault_of_le {a : Nat} {b : Byte} (ha : a < s.cfg.memSize) (hb : 8 ≤ b.toNat) :
    s.registerFault a b = [⟨.outOfBoundsRegister, s.pc, b.toNat⟩] :=
  if_pos ⟨ha, hb⟩

theorem registerFault_of_lt {a : Nat} {b : Byte} (hb : b.toNat < 8) : s.registerFault a b = [] :=
  if_neg fun h => Nat.not_le.2 hb h.2

/-- The record in the state answered is the first of these faults, and empty where there are none. -/
def Reports (r : Result) (faults : List FaultRecord) : Prop := ∀ t, r = .next t → t.fault = faults.head?

theorem reports_raised (kind : FaultKind) (detail : Nat) (faults : List FaultRecord) :
    Reports (.next (s.raised kind detail)) (⟨kind, s.pc, detail⟩ :: faults) := by
  rintro t ⟨⟩
  rfl

/-- The end of a step reports a next `pc` outside memory, and nothing else. -/
theorem reports_commit {next : Nat} (hw : w.fault = none) : Reports (commit s w next) (s.memoryFault next) := by
  intro t h
  obtain ⟨hn, rfl⟩ | ⟨hn, rfl⟩ := commit_cases h
  · rw [memoryFault_of_lt hn]
    exact hw
  · rw [memoryFault_of_le hn]
    rfl

/-- A register operand's check reports its byte before anything that the instruction goes on to find. -/
theorem reports_withReg {a : Nat} {b : Byte} {k : Reg → Result} {faults : List FaultRecord}
    (ha : a < s.cfg.memSize) (hk : ∀ r : Reg, b.toNat = r.val → Reports (k r) faults) :
    Reports (withReg b s k) (s.registerFault a b ++ faults) := by
  by_cases hb : b.toNat < 8
  · have hr : b.toNat = (⟨b.toNat, hb⟩ : Reg).val := rfl
    rw [registerFault_of_lt hb, withReg_of_names hr]
    exact hk _ hr
  · rw [registerFault_of_le ha (Nat.not_lt.1 hb), withReg_of_le (Nat.not_lt.1 hb)]
    exact reports_raised _ _ _

section
variable {op : Byte} {faults : List FaultRecord} (hs : s.status = .running) (hpc : s.pc < s.cfg.memSize)
  (hop : Memory.read s.cfg s.mem s.pc = op)
include hs hpc hop

/-- A step that needs one operand byte reports it missing before anything the instruction finds. -/
theorem step_reports_of_decodeFR {mk : Byte → Instr} (hd : ∀ rest, decode (op :: rest) = decodeFR mk rest)
    (hx : s.pc + 1 < s.cfg.memSize → Reports (exec (mk (Memory.read s.cfg s.mem (s.pc + 1))) s) faults) :
    Reports (step s) (s.memoryFault (s.pc + 1) ++ faults) := by
  rw [step_of_running hs]
  by_cases h1 : s.cfg.memSize ≤ s.pc + 1
  · rw [memoryFault_of_le h1, fetchWindow_one (by omega), hop, hd]
    exact reports_raised _ _ _
  · rw [memoryFault_of_lt (Nat.not_le.1 h1), fetchWindow_of_pc_lt hpc, memRead_of_lt (Nat.not_le.1 h1), hop, hd]
    exact hx (Nat.not_le.1 h1)

/-- A step that needs two operand bytes reports the first of them that is missing before anything the instruction
finds. -/
theorem step_reports_of_decodeFRR {mk : Byte → Byte → Instr} (hd : ∀ rest, decode (op :: rest) = decodeFRR mk rest)
    (hx : s.pc + 2 < s.cfg.memSize →
      Reports (exec (mk (Memory.read s.cfg s.mem (s.pc + 1)) (Memory.read s.cfg s.mem (s.pc + 2))) s) faults) :
    Reports (step s) (s.memoryFault (s.pc + 1) ++ (s.memoryFault (s.pc + 2) ++ faults)) := by
  rw [step_of_running hs]
  by_cases h1 : s.cfg.memSize ≤ s.pc + 1
  · rw [memoryFault_of_le h1, fetchWindow_one (by omega), hop, hd]
    exact reports_raised _ _ _
  by_cases h2 : s.cfg.memSize ≤ s.pc + 2
  · rw [memoryFault_of_lt (Nat.not_le.1 h1), memoryFault_of_le h2, fetchWindow_two (by omega), hop, hd]
    exact reports_raised _ _ _
  · rw [memoryFault_of_lt (Nat.not_le.1 h1), memoryFault_of_lt (Nat.not_le.1 h2), fetchWindow_three (by omega), hop, hd]
    exact hx (Nat.not_le.1 h2)

end

/-! ### R76's list for each operand format, and the step's report of it -/

variable {op b b1 b2 : Byte} {next : Nat} {r : Reg}

theorem faultsOfKnownOpcode_ldi :
    faultsOfKnownOpcode s 0x82#8 b1 b2 =
      s.memoryFault (s.pc + 1) ++
        (s.memoryFault (s.pc + 2) ++ (s.registerFault (s.pc + 1) b1 ++ s.memoryFault (s.pc + 3))) := by
  simp [faultsOfKnownOpcode, State.memoryFault, State.registerFault, nextPcAskedFor]

theorem faultsOfKnownOpcode_of_FRR (hop : op ∈ [0xA2#8, 0xA7#8]) :
    faultsOfKnownOpcode s op b1 b2 =
      s.memoryFault (s.pc + 1) ++
        (s.memoryFault (s.pc + 2) ++
          (s.registerFault (s.pc + 1) b1 ++ (s.registerFault (s.pc + 2) b2 ++ s.memoryFault (s.pc + 3)))) := by
  obtain rfl | rfl : op = 0xA2#8 ∨ op = 0xA7#8 := by simpa using hop
  all_goals simp [faultsOfKnownOpcode, State.memoryFault, State.registerFault, nextPcAskedFor]

theorem faultsOfKnownOpcode_of_FR (hop : op ∈ [0x47#8, 0x54#8, 0x55#8, 0x56#8])
    (hn : nextPcAskedFor s op b1 = some next) :
    faultsOfKnownOpcode s op b1 b2 =
      s.memoryFault (s.pc + 1) ++ (s.registerFault (s.pc + 1) b1 ++ s.memoryFault next) := by
  obtain rfl | rfl | rfl | rfl : op = 0x47#8 ∨ op = 0x54#8 ∨ op = 0x55#8 ∨ op = 0x56#8 := by simpa using hop
  all_goals simp [faultsOfKnownOpcode, State.memoryFault, State.registerFault, hn]

/-- A conditional jump's next `pc` is the one that R76's list asks about. -/
theorem reports_branch {taken : Bool} (hf : s.fault = none) (hr : b.toNat = r.val)
    (hn : next = if taken then ((s.regs[b.toNat]?).getD 0#8).toNat else s.pc + 2) :
    Reports (commit s s (if taken then (s.getReg r).toNat else s.pc + 2)) (s.memoryFault next) := by
  have hreg : (s.regs[b.toNat]?).getD 0#8 = s.getReg r := by
    simp [hr, State.getReg]
  rw [hn, hreg]
  exact reports_commit hf

section
variable (hs : s.status = .running) (hpc : s.pc < s.cfg.memSize) (hop : Memory.read s.cfg s.mem s.pc = op)
include hs hpc hop

theorem step_reports_of_FR {mk : Byte → Instr} {k : Reg → Result} (hfr : op ∈ [0x47#8, 0x54#8, 0x55#8, 0x56#8])
    (hb : Memory.read s.cfg s.mem (s.pc + 1) = b1) (hd : ∀ rest, decode (op :: rest) = decodeFR mk rest)
    (hx : exec (mk b1) s = withReg b1 s k) (hn : nextPcAskedFor s op b1 = some next)
    (hk : ∀ r : Reg, b1.toNat = r.val → Reports (k r) (s.memoryFault next)) :
    Reports (step s) (faultsOfKnownOpcode s op b1 b2) := by
  rw [faultsOfKnownOpcode_of_FR hfr hn]
  refine step_reports_of_decodeFR hs hpc hop hd fun h1 => ?_
  rw [hb, hx]
  exact reports_withReg h1 hk

theorem step_reports_of_FRR {mk : Byte → Byte → Instr} {k : Reg → Reg → State} (hfrr : op ∈ [0xA2#8, 0xA7#8])
    (hb1 : Memory.read s.cfg s.mem (s.pc + 1) = b1) (hb2 : Memory.read s.cfg s.mem (s.pc + 2) = b2)
    (hd : ∀ rest, decode (op :: rest) = decodeFRR mk rest)
    (hx : exec (mk b1 b2) s = withRegs b1 b2 s fun ra rb => commit s (k ra rb) (s.pc + 3))
    (hk : ∀ ra rb, (k ra rb).fault = none) :
    Reports (step s) (faultsOfKnownOpcode s op b1 b2) := by
  rw [faultsOfKnownOpcode_of_FRR hfrr]
  refine step_reports_of_decodeFRR hs hpc hop hd fun h2 => ?_
  rw [hb1, hb2, hx]
  exact reports_withReg (Nat.lt_of_succ_lt h2) fun ra _ => reports_withReg h2 fun rb _ =>
    reports_commit (hk ra rb)

end

theorem step_reports_of_known_byte (hs : s.status = .running) (hpc : s.pc < s.cfg.memSize) (hf : s.fault = none)
    {o : Opcode} (hop : Memory.read s.cfg s.mem s.pc = o.byte) :
    Reports (step s) (faultsOfKnownOpcode s o.byte (Memory.read s.cfg s.mem (s.pc + 1))
      (Memory.read s.cfg s.mem (s.pc + 2))) := by
  cases o with
  | halt =>
    rw [step_of_running hs, fetchWindow_of_pc_lt hpc, hop, decode_byte_cons]
    rintro t ⟨⟩
    exact hf
  | ldi =>
    rw [show Opcode.ldi.byte = 0x82#8 from rfl, faultsOfKnownOpcode_ldi]
    exact step_reports_of_decodeFRR hs hpc hop (decode_byte_cons .ldi) fun h2 =>
      reports_withReg (Nat.lt_of_succ_lt h2) fun _ _ => reports_commit hf
  | prn =>
    exact step_reports_of_FR hs hpc hop (by decide) rfl (decode_byte_cons .prn) rfl rfl fun _ _ => reports_commit hf
  | mul =>
    exact step_reports_of_FRR hs hpc hop (by decide) rfl rfl (decode_byte_cons .mul) rfl fun _ _ => hf
  | jmp =>
    exact step_reports_of_FR hs hpc hop (by decide) rfl (decode_byte_cons .jmp) rfl rfl fun _ hr =>
      reports_branch hf hr rfl
  | cmp =>
    exact step_reports_of_FRR hs hpc hop (by decide) rfl rfl (decode_byte_cons .cmp) rfl fun _ _ => hf
  | jeq =>
    exact step_reports_of_FR hs hpc hop (by decide) rfl (decode_byte_cons .jeq) rfl rfl fun _ hr =>
      reports_branch hf hr rfl
  | jne =>
    refine step_reports_of_FR hs hpc hop (by decide) rfl (decode_byte_cons .jne) rfl rfl fun _ hr =>
      reports_branch hf hr ?_
    simp only [flagL, flagG, Bool.or_eq_true]

theorem step_reports_of_unknown_byte (hs : s.status = .running) (hpc : s.pc < s.cfg.memSize) (hf : s.fault = none)
    (hop : Memory.read s.cfg s.mem s.pc ∉ opmapBytes) : Reports (step s) (faultsThatApply s) := by
  rw [step_of_unknown_byte hs hpc hop, faultsThatApply, if_pos hop]
  cases hp : s.cfg.unknownOpcode with
  | fault =>
    rw [unknownOpcodeStep_of_fault hp]
    exact reports_raised _ _ _
  | skip =>
    rw [unknownOpcodeStep_of_skip hp]
    exact reports_commit hf

theorem step_reports_faultsThatApply (hpc : s.pc < s.cfg.memSize) (hf : s.fault = none) :
    Reports (step s) (faultsThatApply s) := by
  intro t h
  obtain ⟨hs, -⟩ := step_cases h
  cases ho : Opcode.ofByte? (Memory.read s.cfg s.mem s.pc) with
  | none => exact step_reports_of_unknown_byte hs hpc hf (ofByte?_eq_none_iff_notMem.1 ho) t h
  | some o =>
    have hop := (Opcode.byte_of_ofByte? ho).symm
    have hknown : ¬ Memory.read s.cfg s.mem s.pc ∉ opmapBytes := by
      rw [← ofByte?_eq_none_iff_notMem, ho]
      nofun
    rw [faultsThatApply, if_neg hknown, hop]
    exact step_reports_of_known_byte hs hpc hf hop t h

end Machine

/-- Settles O26: the decoder rejects the byte whatever follows it, and the policy decides what the step does. -/
theorem unknownOpcodeFaultsOrSkips : Obligations.UnknownOpcodeFaultsOrSkips := by
  intro s op hs hm hop
  obtain ⟨hpc, rfl⟩ := Machine.memRead_eq_some.1 hm
  rw [Machine.step_of_unknown_byte hs hpc hop]
  refine ⟨Machine.unknownOpcodeStep_of_fault, fun hp => ?_, rfl⟩
  rw [Machine.unknownOpcodeStep_of_skip hp]
  exact ⟨Machine.commit_of_lt, Machine.commit_of_le⟩

/-- Settles O28: a step ends Faulted only by raising a fault. -/
theorem faultingStepIsPrecise : Obligations.FaultingStepIsPrecise := by
  intro s t h ht
  obtain ⟨kind, detail, rfl⟩ := Machine.exists_eq_raised_of_step_faulted h ht
  exact ⟨Machine.sameButStatus_raised s kind detail, ⟨kind, detail, rfl⟩, Machine.step_raised_ne_next s kind detail⟩

/-- Settles O29: a step makes its checks in the order of R76 and stops at the first that fails. -/
theorem reportedFaultIsFirstThatApplies : Obligations.ReportedFaultIsFirstThatApplies :=
  fun _ t hpc hf => Machine.step_reports_faultsThatApply hpc hf t

end Sys2Proof

/-! PROOFS. HALT from its byte in memory: the step that halts the core, and the run loop that then returns it (R80). -/

namespace Sys2Proof

namespace Machine

variable {s t : State}

/-- HALT needs no byte but its own, so its step does not depend on what follows in memory. -/
theorem step_of_halt_byte (hs : s.status = .running) (hm : s.memRead s.pc = some Opcode.halt.byte) :
    step s = .next (s.setStatus .halted) := by
  obtain ⟨hpc, hop⟩ := memRead_eq_some.1 hm
  rw [step_of_running hs, fetchWindow_of_pc_lt hpc, hop, decode_byte_cons]
  rfl

theorem step_ne_next_of_not_running (hs : s.status ≠ .running) : step s ≠ .next t := by
  rw [step_of_not_running hs]
  nofun

theorem runLoop_succ_of_step {fuel : Nat} (h : step s = .next t) : runLoop (fuel + 1) s = runLoop fuel t := by
  rw [runLoop, h]

/-- A step that stops the core is the run loop's last. -/
theorem runLoop_succ_of_stopping_step {fuel : Nat} (h : step s = .next t) (ht : t.status ≠ .running) :
    runLoop (fuel + 1) s = .returned t :=
  (runLoop_succ_of_step h).trans (runLoop_of_not_running ht)

end Machine

/-- Settles O9: the decoder reads HALT from its byte alone, and a Halted core has no step. -/
theorem stepOfHaltBytes : Obligations.StepOfHaltBytes := by
  intro s hs hm
  have hstep := Machine.step_of_halt_byte hs hm
  have hstopped : (s.setStatus .halted).status ≠ .running := nofun
  exact ⟨hstep, fun _ => Machine.step_ne_next_of_not_running hstopped,
    fun _ => Machine.runLoop_succ_of_stopping_step hstep hstopped⟩

end Sys2Proof

/-! PROOFS. LDI and PRN from their bytes in memory: the load and the output, and the faults of each in their order
(R81, R82). -/

namespace Sys2Proof

namespace Machine

variable {s : State}

/-! ### A step by what its bytes decode to -/

theorem step_of_decode_ok {i : Instr} {rest : List Byte} (hs : s.status = .running)
    (hd : decode s.fetchWindow = .ok i rest) : step s = exec i s := by
  rw [step_of_running hs, hd]

theorem step_of_decode_truncated {k : Nat} (hs : s.status = .running) (hd : decode s.fetchWindow = .truncated k) :
    step s = .next (s.raised .outOfBoundsMemory (s.pc + k)) := by
  rw [step_of_running hs, hd]
  rfl

/-! ### The operand bytes in memory, or missing -/

section
variable {op b1 b2 : Byte} (hs : s.status = .running) (hm : s.memRead s.pc = some op)
include hm

theorem fetchWindow_of_memRead_pc :
    s.fetchWindow = op :: ((s.memRead (s.pc + 1)).toList ++ (s.memRead (s.pc + 2)).toList) := by
  obtain ⟨hpc, rfl⟩ := memRead_eq_some.1 hm
  exact fetchWindow_of_pc_lt hpc

/-- Memory that ends before `pc + 1` ends before `pc + 2`. -/
theorem fetchWindow_of_no_operand (h1 : s.memRead (s.pc + 1) = none) : s.fetchWindow = [op] := by
  have h2 : s.memRead (s.pc + 2) = none := memRead_of_le (Nat.le_succ_of_le (memRead_eq_none.1 h1))
  rw [fetchWindow_of_memRead_pc hm, h1, h2]
  rfl

include hs

theorem step_of_no_operand (hd : decode [op] = .truncated 1) (h1 : s.memRead (s.pc + 1) = none) :
    step s = .next (s.raised .outOfBoundsMemory (s.pc + 1)) := by
  refine step_of_decode_truncated hs ?_
  rw [fetchWindow_of_no_operand hm h1, hd]

/-- A row of format FR executes its operand byte, whatever follows it. -/
theorem step_of_FR {mk : Byte → Instr} (hd : ∀ rest, decode (op :: rest) = decodeFR mk rest)
    (h1 : s.memRead (s.pc + 1) = some b1) : step s = exec (mk b1) s := by
  refine step_of_decode_ok hs (rest := (s.memRead (s.pc + 2)).toList) ?_
  rw [fetchWindow_of_memRead_pc hm, h1, hd]
  rfl

section
variable {mk : Byte → Byte → Instr} (hd : ∀ rest, decode (op :: rest) = decodeFRR mk rest)
  (h1 : s.memRead (s.pc + 1) = some b1)
include hd h1

theorem step_of_FRR_second_operand_missing (h2 : s.memRead (s.pc + 2) = none) :
    step s = .next (s.raised .outOfBoundsMemory (s.pc + 2)) := by
  refine step_of_decode_truncated hs ?_
  rw [fetchWindow_of_memRead_pc hm, h1, h2, hd]
  rfl

theorem step_of_FRR (h2 : s.memRead (s.pc + 2) = some b2) : step s = exec (mk b1 b2) s := by
  refine step_of_decode_ok hs (rest := []) ?_
  rw [fetchWindow_of_memRead_pc hm, h1, h2, hd]
  rfl

end

end

/-! ### The two meanings -/

theorem exec_ldi (b imm : Byte) (s : State) :
    exec (.ldi b imm) s = withReg b s fun r => commit s (s.setReg r imm) (s.pc + 3) := rfl

theorem exec_prn (b : Byte) (s : State) :
    exec (.prn b) s = withReg b s fun r => commit s (s.emit (s.getReg r)) (s.pc + 2) := rfl

end Machine

/-- Settles O10: an operand byte missing stops the decoder; with both present the step is LDI's check of its register
byte and then of the next `pc`. -/
theorem stepOfLdiBytes : Obligations.StepOfLdiBytes := by
  intro s hs hm
  have hd := decode_byte_cons .ldi
  refine ⟨Machine.step_of_no_operand hs hm (hd []), fun b1 h1 =>
    ⟨Machine.step_of_FRR_second_operand_missing hs hm hd h1, fun b2 h2 => ?_⟩⟩
  rw [Machine.step_of_FRR hs hm hd h1 h2, Machine.exec_ldi]
  refine ⟨Machine.withReg_of_le, fun r hr => ?_⟩
  rw [Machine.withReg_of_names hr]
  exact ⟨Machine.commit_of_le, Machine.commit_of_lt⟩

/-- Settles O11: a missing operand byte stops the decoder; with it present the step is PRN's check of its register
byte and then of the next `pc`, before which nothing is emitted. -/
theorem stepOfPrnBytes : Obligations.StepOfPrnBytes := by
  intro s hs hm
  have hd := decode_byte_cons .prn
  refine ⟨Machine.step_of_no_operand hs hm (hd []), fun b1 h1 => ?_⟩
  rw [Machine.step_of_FR hs hm hd h1, Machine.exec_prn]
  refine ⟨Machine.withReg_of_le, fun r hr => ?_⟩
  rw [Machine.withReg_of_names hr]
  exact ⟨Machine.commit_of_le, Machine.commit_of_lt⟩

end Sys2Proof

/-! PROOFS. The ALU's results, the comparison, and MUL and CMP from their bytes in memory, with the faults of each in
their order (R83-R92). -/

namespace Sys2Proof

namespace Machine

variable {s : State} {a b : Byte} {ra rb : Reg}

/-! ### The ALU's results (R83-R87) -/

/-- `f_ADD` as R85 writes it. -/
theorem AluOp.result_add (a b : Byte) : AluOp.result .add a b = BitVec.ofNat 8 ((a.toNat + b.toNat) % 256) :=
  BitVec.eq_of_toNat_eq (by simp [AluOp.result])

/-- `f_MUL` as R87 writes it. -/
theorem AluOp.result_mul (a b : Byte) : AluOp.result .mul a b = BitVec.ofNat 8 (a.toNat * b.toNat % 256) :=
  BitVec.eq_of_toNat_eq (by simp [AluOp.result])

theorem AluOp.result_sub_of_le (h : b.toNat ≤ a.toNat) :
    AluOp.result .sub a b = BitVec.ofNat 8 (a.toNat - b.toNat) := by
  rw [AluOp.result, ← Int.ofNat_sub h, BitVec.ofInt_natCast]

/-- A negative difference is raised by 256 (R86). -/
theorem AluOp.result_sub_of_lt (h : a.toNat < b.toNat) :
    AluOp.result .sub a b = BitVec.ofNat 8 (a.toNat + 256 - b.toNat) := by
  refine BitVec.eq_of_toNat_eq ?_
  simp only [AluOp.result, BitVec.toNat_ofInt, BitVec.toNat_ofNat]
  omega

theorem alu_eq (op : AluOp) (ra rb : Reg) (s : State) :
    alu op ra rb s = { s with regs := s.regs.set ra.val (op.result (s.getReg ra) (s.getReg rb)) } := rfl

/-- A select that names an operation writes its result to the first register alone (R83, R88). -/
theorem aluInterface_of_ofName? {select : String} {op : AluOp} {v : Byte} (hop : AluOp.ofName? select = some op)
    (hv : op.result (s.getReg ra) (s.getReg rb) = v) :
    aluInterface select ra rb s = .ok { s with regs := s.regs.set ra.val v } := by
  simp only [aluInterface, hop, alu_eq, hv]

/-! ### The comparison (R91) -/

theorem compareFlags_of_eq (h : a = b) : compareFlags a b = 0b001#8 := if_pos h

theorem compareFlags_of_lt (h : a.toNat < b.toNat) : compareFlags a b = 0b010#8 := by
  have hne : a ≠ b := fun e => Nat.ne_of_lt h (congrArg BitVec.toNat e)
  rw [compareFlags, if_neg hne, if_pos h]

theorem compareFlags_of_gt (h : b.toNat < a.toNat) : compareFlags a b = 0b100#8 := by
  have hne : a ≠ b := fun e => Nat.ne_of_gt h (congrArg BitVec.toNat e)
  rw [compareFlags, if_neg hne, if_neg (Nat.lt_asymm h)]

/-! ### Two register operands (R71) -/

section
variable {b1 b2 : Byte} {k : Reg → Reg → Result}

theorem withRegs_of_names (h1 : b1.toNat = ra.val) (h2 : b2.toNat = rb.val) : withRegs b1 b2 s k = k ra rb := by
  rw [withRegs, withReg_of_names h1, withReg_of_names h2]

theorem withRegs_of_first_le (h1 : 8 ≤ b1.toNat) :
    withRegs b1 b2 s k = .next (s.raised .outOfBoundsRegister b1.toNat) :=
  withReg_of_le h1

/-- The second operand's fault is reported once the first names a register. -/
theorem withRegs_of_second_le (h1 : b1.toNat < 8) (h2 : 8 ≤ b2.toNat) :
    withRegs b1 b2 s k = .next (s.raised .outOfBoundsRegister b2.toNat) := by
  rw [withRegs, withReg_of_names (r := ⟨b1.toNat, h1⟩) rfl, withReg_of_le h2]

end

/-! ### The two meanings -/

theorem exec_mul (b1 b2 : Byte) (s : State) :
    exec (.mul b1 b2) s = withRegs b1 b2 s fun ra rb => commit s (alu .mul ra rb s) (s.pc + 3) := rfl

theorem exec_cmp (b1 b2 : Byte) (s : State) :
    exec (.cmp b1 b2) s =
      withRegs b1 b2 s fun ra rb => commit s (s.setFl (compareFlags (s.getReg ra) (s.getReg rb))) (s.pc + 3) := rfl

/-- A MUL with its operands in order ends with the product written and `pc` advanced. -/
theorem commit_mul (hn : s.pc + 3 < s.cfg.memSize) :
    commit s (alu .mul ra rb s) (s.pc + 3) =
      .next { s with
        regs := s.regs.set ra.val (BitVec.ofNat 8 ((s.getReg ra).toNat * (s.getReg rb).toNat % 256))
        pc := s.pc + 3 } := by
  rw [commit_of_lt hn, alu_eq, AluOp.result_mul]
  rfl

/-- A CMP with its operands in order ends with the comparison's result in FL and `pc` advanced. -/
theorem commit_cmp {fl : Byte} (hn : s.pc + 3 < s.cfg.memSize)
    (hfl : compareFlags (s.getReg ra) (s.getReg rb) = fl) :
    commit s (s.setFl (compareFlags (s.getReg ra) (s.getReg rb))) (s.pc + 3) =
      .next { s with fl := fl, pc := s.pc + 3 } := by
  rw [commit_of_lt hn, hfl]
  rfl

end Machine

/-- Settles O12: an operand byte missing stops the decoder; with both present the step is MUL's check of its register
bytes, the first before the second, and then of the next `pc`. -/
theorem stepOfMulBytes : Obligations.StepOfMulBytes := by
  intro s hs hm
  have hd := decode_byte_cons .mul
  refine ⟨Machine.step_of_no_operand hs hm (hd []), fun b1 h1 =>
    ⟨Machine.step_of_FRR_second_operand_missing hs hm hd h1, fun b2 h2 => ?_⟩⟩
  rw [Machine.step_of_FRR hs hm hd h1 h2, Machine.exec_mul]
  refine ⟨Machine.withRegs_of_first_le, Machine.withRegs_of_second_le, fun ra rb ha hb => ?_⟩
  rw [Machine.withRegs_of_names ha hb]
  exact ⟨Machine.commit_of_le, Machine.commit_mul⟩

/-- Settles O14: the checks are those of MUL, the three orders of the compared values give the three results, and no
instruction but CMP writes FL. -/
theorem stepOfCmpBytes : Obligations.StepOfCmpBytes := by
  intro s hs hm
  have hd := decode_byte_cons .cmp
  refine ⟨Machine.step_of_no_operand hs hm (hd []), fun b1 h1 =>
    ⟨Machine.step_of_FRR_second_operand_missing hs hm hd h1, fun b2 h2 => ?_⟩⟩
  rw [Machine.step_of_FRR hs hm hd h1 h2, Machine.exec_cmp]
  refine ⟨Machine.withRegs_of_first_le, Machine.withRegs_of_second_le, fun ra rb ha hb => ?_⟩
  rw [Machine.withRegs_of_names ha hb]
  refine ⟨Machine.commit_of_le, fun hn => ⟨?_, ?_, ?_, fun _ _ _ _ hi he => Machine.exec_fl_of_ne_cmp he hi⟩⟩
  · exact fun h => Machine.commit_cmp hn (Machine.compareFlags_of_eq h)
  · exact fun h => Machine.commit_cmp hn (Machine.compareFlags_of_lt h)
  · exact fun h => Machine.commit_cmp hn (Machine.compareFlags_of_gt h)

/-- Settles O38: each name selects its operation, which writes its result to the first register alone. -/
theorem aluResultsAreModulo256 : Obligations.AluResultsAreModulo256 := by
  intro s ra rb
  refine ⟨?add, fun h => ?sub_nonneg, fun h => ?sub_neg, ?mul⟩
  case add => exact Machine.aluInterface_of_ofName? rfl (Machine.AluOp.result_add _ _)
  case sub_nonneg => exact Machine.aluInterface_of_ofName? rfl (Machine.AluOp.result_sub_of_le h)
  case sub_neg => exact Machine.aluInterface_of_ofName? rfl (Machine.AluOp.result_sub_of_lt h)
  case mul => exact Machine.aluInterface_of_ofName? rfl (Machine.AluOp.result_mul _ _)

/-- Settles O36: the three cases of R91 are the three orders of two unsigned values. -/
theorem compareHasExactlyOneOutcome : Obligations.CompareHasExactlyOneOutcome := by
  intro a b
  obtain h | h | h := Nat.lt_trichotomy a.toNat b.toNat
  · exact .inr (.inl ⟨h, Machine.compareFlags_of_lt h⟩)
  · exact .inl ⟨h, Machine.compareFlags_of_eq (BitVec.eq_of_toNat_eq h)⟩
  · exact .inr (.inr ⟨h, Machine.compareFlags_of_gt h⟩)

end Sys2Proof

/-! PROOFS. JMP, JEQ and JNE from their bytes in memory: the jump taken or not, with the faults of each in their order
(R93-R96). -/

namespace Sys2Proof

namespace Machine

/-! ### The flags of a comparison, as the conditional jumps test them (R23, R91) -/

theorem equal_bit_compareFlags {a b : Byte} : (compareFlags a b)[0] = true ↔ a = b := by
  unfold compareFlags
  split
  case isTrue h => simp [h]
  case isFalse h => split <;> simp [h]

/-- A comparison sets L or G exactly when it leaves E clear. -/
theorem less_or_greater_bit_compareFlags {a b : Byte} :
    ((compareFlags a b)[1] = true ∨ (compareFlags a b)[2] = true) ↔ a ≠ b := by
  rw [ne_eq, ← equal_bit_compareFlags]
  obtain h | h | h := compareFlags_eq_one_bit a b <;> rw [h] <;> decide

/-! ### The three meanings, each by the next `pc` it asks for -/

section
variable (b : Byte) (s : State)

theorem exec_jmp : exec (.jmp b) s = withReg b s fun r => commit s s (s.getReg r).toNat := rfl

theorem exec_jeq :
    exec (.jeq b) s =
      withReg b s fun r => commit s s (if s.fl[0] = true then (s.getReg r).toNat else s.pc + 2) := rfl

theorem exec_jne :
    exec (.jne b) s =
      withReg b s fun r =>
        commit s s (if s.fl[1] = true ∨ s.fl[2] = true then (s.getReg r).toNat else s.pc + 2) := by
  simp only [exec, execJne, branchIf, flagL, flagG, Bool.or_eq_true]

end

/-- A jump from its bytes: it asks for its operand byte, then for a register, then for a next `pc` in memory, and
writes nothing but `pc` (R93). -/
theorem step_of_jump_bytes {s : State} {op : Byte} {mk : Byte → Instr} {next : Reg → Nat}
    (hs : s.status = .running) (hm : s.memRead s.pc = some op) (hd : ∀ rest, decode (op :: rest) = decodeFR mk rest)
    (hx : ∀ b, exec (mk b) s = withReg b s fun r => commit s s (next r)) :
    (s.memRead (s.pc + 1) = none → step s = .next (s.raised .outOfBoundsMemory (s.pc + 1))) ∧
    ∀ b1, s.memRead (s.pc + 1) = some b1 →
      (8 ≤ b1.toNat → step s = .next (s.raised .outOfBoundsRegister b1.toNat)) ∧
      ∀ r : Reg, b1.toNat = r.val →
        (s.cfg.memSize ≤ next r → step s = .next (s.raised .outOfBoundsMemory (next r))) ∧
        (next r < s.cfg.memSize → step s = .next (s.setPc (next r))) := by
  refine ⟨step_of_no_operand hs hm (hd []), fun b1 h1 => ?_⟩
  rw [step_of_FR hs hm hd h1, hx]
  refine ⟨withReg_of_le, fun r hr => ?_⟩
  rw [withReg_of_names hr]
  exact ⟨commit_of_le, commit_of_lt⟩

end Machine

/-- Settles O13: JMP is the jump whose next `pc` is the register's value, so nothing is asked of `pc + 2`. -/
theorem stepOfJmpBytes : Obligations.StepOfJmpBytes := fun s hs hm =>
  Machine.step_of_jump_bytes hs hm (decode_byte_cons .jmp) (Machine.exec_jmp · s)

/-- Settles O15: JEQ is the jump whose next `pc` E selects, and a comparison sets E exactly on equal values. -/
theorem stepOfJeqBytes : Obligations.StepOfJeqBytes := by
  intro s hs hm
  obtain ⟨hmissing, hpresent⟩ :=
    Machine.step_of_jump_bytes hs hm (decode_byte_cons .jeq) (Machine.exec_jeq · s)
  refine ⟨hmissing, fun b1 h1 => ?_⟩
  obtain ⟨hbad, hnames⟩ := hpresent b1 h1
  refine ⟨hbad, fun r hr next hnext => ?_⟩
  obtain ⟨hout, hin⟩ := hnames r hr
  subst hnext
  refine ⟨hout, hin, fun x y hfl => ?_⟩
  simp only [hfl, Machine.equal_bit_compareFlags]

/-- Settles O16: JNE is the jump whose next `pc` L and G select, and a comparison sets one of them exactly on values
that differ. -/
theorem stepOfJneBytes : Obligations.StepOfJneBytes := by
  intro s hs hm
  obtain ⟨hmissing, hpresent⟩ :=
    Machine.step_of_jump_bytes hs hm (decode_byte_cons .jne) (Machine.exec_jne · s)
  refine ⟨hmissing, fun b1 h1 => ?_⟩
  obtain ⟨hbad, hnames⟩ := hpresent b1 h1
  refine ⟨hbad, fun r hr next hnext => ?_⟩
  obtain ⟨hout, hin⟩ := hnames r hr
  subst hnext
  refine ⟨hout, hin, fun x y hfl => ?_⟩
  simp only [hfl, Machine.less_or_greater_bit_compareFlags, ite_not]

end Sys2Proof

/-! PROOFS. The decoder and the encoder are inverse to each other (R53-R60), and a step runs the instruction whose bytes
memory holds at `pc` (R68-R72). -/

namespace Sys2Proof

/-- An encoding's first byte selects its row, whose format reads exactly the encoding's operand bytes. -/
theorem decode_encode_append (i : Instr) (rest : List Byte) : decode (encode i ++ rest) = .ok i rest := by
  cases i with
  | halt => exact decode_byte_cons .halt _
  | ldi => exact decode_byte_cons .ldi _
  | prn => exact decode_byte_cons .prn _
  | mul => exact decode_byte_cons .mul _
  | jmp => exact decode_byte_cons .jmp _
  | cmp => exact decode_byte_cons .cmp _
  | jeq => exact decode_byte_cons .jeq _
  | jne => exact decode_byte_cons .jne _

theorem decode_encode (i : Instr) : decode (encode i) = .ok i [] := by
  simpa using decode_encode_append i []

theorem length_encode_le (i : Instr) : (encode i).length ≤ 3 := by
  cases i <;> simp [encode]

/-- More bytes after those that an instruction was read from are left over. -/
theorem decode_append_of_decode_eq_ok {bytes rest : List Byte} {i : Instr} (h : decode bytes = .ok i rest)
    (more : List Byte) : decode (bytes ++ more) = .ok i (rest ++ more) := by
  rw [← encode_append_of_decode_eq_ok h, List.append_assoc, decode_encode_append]

theorem decode_tableWordBytes {nbits w : Nat} (h : decodeTableWord nbits w = some i) :
    ∃ rest, decode (tableWordBytes nbits w) = .ok i rest := by
  unfold decodeTableWord at h
  split at h
  · cases h
    exact ⟨_, ‹_›⟩
  · cases h
  · cases h

theorem decode_cons_eq_unknown_iff {op : Byte} {rest : List Byte} :
    decode (op :: rest) = .unknownOpcode op ↔ op ∉ Machine.opmapBytes := by
  rw [← Machine.ofByte?_eq_none_iff_notMem]
  refine ⟨fun h => ?_, decode_cons_of_unknown⟩
  obtain ⟨_, -, ho⟩ := decode_eq_unknown h
  exact ho

/-- The numbers of the eight opcode bytes (R58). -/
def opcodeNumbers : Finset Nat := {0x01, 0x82, 0x47, 0xA2, 0x54, 0xA7, 0x55, 0x56}

theorem ofNat_mem_opmapBytes {n : Nat} (hn : n < 256) : BitVec.ofNat 8 n ∈ Machine.opmapBytes ↔ n ∈ opcodeNumbers := by
  simp [Machine.opmapBytes, opcodeNumbers, ← BitVec.toNat_inj, Nat.mod_eq_of_lt hn]

/-- The unknown bytes are all bytes but the eight of the map (R60). -/
theorem unknown_numbers_eq_sdiff :
    (Finset.range 256).filter (fun n => decode [BitVec.ofNat 8 n] = .unknownOpcode (BitVec.ofNat 8 n)) =
      Finset.range 256 \ opcodeNumbers := by
  ext n
  rw [Finset.mem_filter, Finset.mem_sdiff, decode_cons_eq_unknown_iff]
  exact and_congr_right fun hn => not_congr (ofNat_mem_opmapBytes (Finset.mem_range.1 hn))

theorem card_range_sdiff_opcodeNumbers : (Finset.range 256 \ opcodeNumbers).card = 248 := by
  have hsub : opcodeNumbers ⊆ Finset.range 256 := by
    simp [opcodeNumbers, Finset.insert_subset_iff]
  rw [Finset.card_sdiff_of_subset hsub, Finset.card_range]
  rfl

/-- Settles O21: each row's byte selects its row, which reads the operand bytes that the encoder writes. -/
theorem decodeOfEncodeIsIdentity : Obligations.DecodeOfEncodeIsIdentity := decode_encode_append

/-- Settles O22: the row a byte selects has that byte, and its format gives the operand bytes back in order. -/
theorem decodedBytesAreTheEncoding : Obligations.DecodedBytesAreTheEncoding :=
  fun _ _ _ h => (encode_append_of_decode_eq_ok h).symm

/-- Settles O23: the decoder's map is `OPMAP`, and its eight bytes are different ones of the 256. -/
theorem unknownOpcodeBytesAreRejected : Obligations.UnknownOpcodeBytesAreRejected :=
  ⟨fun _ _ => decode_cons_eq_unknown_iff,
    (congrArg Finset.card unknown_numbers_eq_sdiff).trans card_range_sdiff_opcodeNumbers⟩

namespace Machine

variable {s : State} {i : Instr} {bytes rest : List Byte}

/-- The fetch window begins with what memory holds at `pc`, as far as an instruction can reach. -/
theorem fetchWindow_of_holdsAtPc (h : s.holdsAtPc bytes) (hl : bytes.length ≤ 3) :
    ∃ more, s.fetchWindow = bytes ++ more := by
  have hget : ∀ k b, bytes[k]? = some b → s.memRead (s.pc + k) = some b := fun k b hb =>
    (h k (List.getElem?_eq_some_iff.1 hb).1).trans hb
  rw [fetchWindow_eq]
  rcases bytes with _ | ⟨b0, _ | ⟨b1, _ | ⟨b2, _ | ⟨b3, bytes⟩⟩⟩⟩
  · exact ⟨_, rfl⟩
  · rw [show s.memRead s.pc = some b0 from hget 0 b0 rfl, List.append_assoc]
    exact ⟨_, rfl⟩
  · rw [show s.memRead s.pc = some b0 from hget 0 b0 rfl, hget 1 b1 rfl]
    exact ⟨_, rfl⟩
  · rw [show s.memRead s.pc = some b0 from hget 0 b0 rfl, hget 1 b1 rfl, hget 2 b2 rfl]
    exact ⟨[], rfl⟩
  · simp only [List.length_cons] at hl
    omega

/-- A Running core runs the instruction that bytes held at `pc` decode to, whatever follows them in memory. -/
theorem step_of_holdsAtPc (hs : s.status = .running) (h : s.holdsAtPc bytes) (hl : bytes.length ≤ 3)
    (hd : decode bytes = .ok i rest) : step s = exec i s := by
  obtain ⟨more, hw⟩ := fetchWindow_of_holdsAtPc h hl
  refine step_of_decode_ok hs (rest := rest ++ more) ?_
  rw [hw, decode_append_of_decode_eq_ok hd]

/-- A word's three bytes stand at `pc` once it is placed there. -/
theorem holdsAtPc_withFetchWord {nbits w : Nat} (hm : Memory.wf s.cfg s.mem = true)
    (hpc : s.pc + 2 < s.cfg.memSize) : (s.withFetchWord nbits w).holdsAtPc (tableWordBytes nbits w) := by
  have hlen : (tableWordBytes nbits w).length = 3 := rfl
  intro k hk
  rw [List.getElem?_eq_getElem hk]
  refine memRead_eq_some.2 ⟨show s.pc + k < s.cfg.memSize by omega, ?_⟩
  have hin : s.pc ≤ s.pc + k ∧ s.pc + k < s.pc + (tableWordBytes nbits w).length := by omega
  refine (Memory.read_writeBytes hm (by omega) (s.pc + k)).trans ?_
  simp only [dif_pos hin, Nat.add_sub_cancel_left]

end Machine

/-- Settles O24: a step of a Running core goes by what its fetch window decodes to. -/
theorem stepRunsDecodedInstruction : Obligations.StepRunsDecodedInstruction :=
  fun _ _ _ hs hd => Machine.step_of_decode_ok hs hd

/-- Settles O25: an encoding is at most as long as the fetch window, and decodes to its instruction. -/
theorem stepRunsEncodedInstruction : Obligations.StepRunsEncodedInstruction :=
  fun _ i hs h => Machine.step_of_holdsAtPc hs h (length_encode_le i) (decode_encode i)

/-- Settles O54: the word's three bytes are read back where they were written, and the placed core is Running. -/
theorem placedWordRunsNext : Obligations.PlacedWordRunsNext := by
  intro s nbits w i hm hpc h
  obtain ⟨rest, hd⟩ := decode_tableWordBytes h
  exact Machine.step_of_holdsAtPc rfl (Machine.holdsAtPc_withFetchWord hm hpc) (Nat.le_refl 3) hd

end Sys2Proof

/-! PROOFS. Each instruction's execution at `pc`: what it does, with its faults in their order, and what it leaves
unchanged (R80-R96). -/

namespace Sys2Proof

namespace Machine

variable {s t : State} {i : Instr} {b b1 b2 : Byte} {r ra rb : Reg}

/-! ### One or two register operands, then the end of a step -/

section
variable {w : Reg → State} {next : Reg → Nat}

theorem withReg_commit_of_lt (hr : b.toNat = r.val) (hn : next r < s.cfg.memSize) :
    withReg b s (fun r => commit s (w r) (next r)) = .next ((w r).setPc (next r)) := by
  rw [withReg_of_names hr, commit_of_lt hn]

theorem withReg_commit_of_le (hr : b.toNat = r.val) (hn : s.cfg.memSize ≤ next r) :
    withReg b s (fun r => commit s (w r) (next r)) = .next (s.raised .outOfBoundsMemory (next r)) := by
  rw [withReg_of_names hr, commit_of_le hn]

end

/-- Two operand bytes below 8 that are in order but whose next `pc` is outside memory. -/
theorem withRegs_commit_of_le {w : Reg → Reg → State} {next : Nat} (h1 : b1.toNat < 8) (h2 : b2.toNat < 8)
    (hn : s.cfg.memSize ≤ next) :
    withRegs b1 b2 s (fun ra rb => commit s (w ra rb) next) = .next (s.raised .outOfBoundsMemory next) := by
  rw [withRegs_of_names (ra := ⟨b1.toNat, h1⟩) (rb := ⟨b2.toNat, h2⟩) rfl rfl, commit_of_le hn]

theorem exec_cmp_of_lt (ha : b1.toNat = ra.val) (hb : b2.toNat = rb.val) (hn : s.pc + 3 < s.cfg.memSize) :
    exec (.cmp b1 b2) s = .next ((s.setFl (compareFlags (s.getReg ra) (s.getReg rb))).setPc (s.pc + 3)) := by
  rw [exec_cmp, withRegs_of_names ha hb, commit_of_lt hn]

/-! ### The conditional jumps by their flags -/

theorem exec_jeq_of_equal (h : s.fl[0] = true) : exec (.jeq b) s = exec (.jmp b) s := by
  simp only [exec_jeq, exec_jmp, h, if_true]

theorem exec_jeq_of_not_equal (h : s.fl[0] = false) :
    exec (.jeq b) s = withReg b s fun _ => commit s s (s.pc + 2) := by
  simp only [exec_jeq, h, Bool.false_eq_true, if_false]

theorem exec_jne_of_less_or_greater (h : s.fl[1] = true ∨ s.fl[2] = true) : exec (.jne b) s = exec (.jmp b) s := by
  simp only [exec_jne, exec_jmp, h, if_true]

theorem exec_jne_of_neither (hl : s.fl[1] = false) (hg : s.fl[2] = false) :
    exec (.jne b) s = withReg b s fun _ => commit s s (s.pc + 2) := by
  simp only [exec_jne, hl, hg, Bool.false_eq_true, or_self, if_false]

theorem exec_jmp_of_lt (hr : b.toNat = r.val) (hn : (s.getReg r).toNat < s.cfg.memSize) :
    exec (.jmp b) s = .next (s.setPc (s.getReg r).toNat) :=
  withReg_commit_of_lt hr hn

theorem exec_jmp_of_le (hr : b.toNat = r.val) (hn : s.cfg.memSize ≤ (s.getReg r).toNat) :
    exec (.jmp b) s = .next (s.raised .outOfBoundsMemory (s.getReg r).toNat) :=
  withReg_commit_of_le hr hn

/-- With 256 bytes of memory every register's value is an address (R73). -/
theorem exec_jmp_of_memSize_eq (hc : s.cfg.memSize = 256) (hr : b.toNat = r.val) :
    exec (.jmp b) s = .next (s.setPc (s.getReg r).toNat) :=
  exec_jmp_of_lt hr (hc ▸ (s.getReg r).isLt)

section
variable {x y : Byte} (hfl : s.fl = compareFlags x y)
include hfl

theorem exec_jeq_of_compareFlags :
    exec (.jeq b) s = withReg b s fun r => commit s s (if x = y then (s.getReg r).toNat else s.pc + 2) := by
  simp only [exec_jeq, hfl, equal_bit_compareFlags]

theorem exec_jne_of_compareFlags :
    exec (.jne b) s = withReg b s fun r => commit s s (if x = y then s.pc + 2 else (s.getReg r).toNat) := by
  simp only [exec_jne, hfl, less_or_greater_bit_compareFlags, ite_not]

end

/-! ### Frames -/

/-- A completed instruction changes no register but the one that LDI's or MUL's first operand byte names (R13). -/
theorem Effect.getReg_eq (h : Effect s i t) (hr : ∀ b x, i = .ldi b x ∨ i = .mul b x → r.val ≠ b.toNat) :
    t.getReg r = s.getReg r := by
  cases h with
  | ldi hb hn => exact State.getReg_setReg_ne _ _ fun e => hr _ _ (.inl rfl) ((congrArg Fin.val e).trans hb.symm)
  | mul ha hb hn => exact State.getReg_setReg_ne _ _ fun e => hr _ _ (.inr rfl) ((congrArg Fin.val e).trans ha.symm)
  | _ => rfl

/-- Only HALT's completion changes the status. -/
theorem Effect.status_eq (h : Effect s i t) (hi : i ≠ .halt) : t.status = s.status := by
  cases h with
  | halt => exact absurd rfl hi
  | _ => rfl

/-- No completed instruction touches the fault record. -/
theorem Effect.fault_eq (h : Effect s i t) : t.fault = s.fault := by
  cases h <;> rfl

/-- An instruction changes neither memory nor the configuration. -/
theorem exec_memRead_cfg (h : exec i s = .next t) : (∀ a, t.memRead a = s.memRead a) ∧ t.cfg = s.cfg := by
  obtain he | ⟨kind, detail, rfl⟩ := effect_or_raised_of_exec h
  · exact ⟨State.memRead_congr he.cfg_eq he.mem_eq, he.cfg_eq⟩
  · exact ⟨fun _ => rfl, rfl⟩

/-- An instruction writes no register but the one that LDI's or MUL's first operand byte names. -/
theorem exec_getReg_eq (h : exec i s = .next t) (hr : ∀ b x, i = .ldi b x ∨ i = .mul b x → r.val ≠ b.toNat) :
    t.getReg r = s.getReg r := by
  obtain he | ⟨kind, detail, rfl⟩ := effect_or_raised_of_exec h
  · exact he.getReg_eq hr
  · rfl

/-- Status and record change by HALT or by a fault raised. -/
theorem exec_status_fault (h : exec i s = .next t) (hi : i ≠ .halt) :
    (t.status = s.status ∧ t.fault = s.fault) ∨ ∃ kind detail, t = s.raised kind detail :=
  (effect_or_raised_of_exec h).imp_left fun he => ⟨he.status_eq hi, he.fault_eq⟩

end Machine

/-- Settles O1: HALT has no operand and no next `pc` to check. -/
theorem haltStopsExecution : Obligations.HaltStopsExecution := fun _ => rfl

/-- Settles O2: LDI checks its register byte, then its next `pc`. -/
theorem ldiWritesImmediate : Obligations.LdiWritesImmediate := by
  intro s b imm
  rw [Machine.exec_ldi]
  exact ⟨fun r hr hn => Machine.withReg_commit_of_lt hr hn, Machine.withReg_of_le,
    fun hb hn => Machine.withReg_commit_of_le (r := ⟨b.toNat, hb⟩) rfl hn⟩

/-- Settles O3: PRN checks its register byte, then its next `pc`, before which nothing is emitted. -/
theorem prnEmitsRegister : Obligations.PrnEmitsRegister := by
  intro s b
  rw [Machine.exec_prn]
  exact ⟨fun r hr hn => Machine.withReg_commit_of_lt hr hn, Machine.withReg_of_le,
    fun hb hn => Machine.withReg_commit_of_le (r := ⟨b.toNat, hb⟩) rfl hn⟩

/-- Settles O4: MUL checks its register bytes in order, then its next `pc`. -/
theorem mulWritesProduct : Obligations.MulWritesProduct := by
  intro s b1 b2
  rw [Machine.exec_mul]
  refine ⟨fun ra rb ha hb hn => ?_, Machine.withRegs_of_first_le, Machine.withRegs_of_second_le,
    Machine.withRegs_commit_of_le⟩
  rw [Machine.withRegs_of_names ha hb]
  exact Machine.commit_mul hn

/-- Settles O5: JMP checks its register byte, then the address that the register holds. -/
theorem jmpGoesToRegister : Obligations.JmpGoesToRegister := fun _ _ =>
  ⟨fun _ => Machine.exec_jmp_of_lt, Machine.withReg_of_le, fun _ => Machine.exec_jmp_of_le⟩

/-- Settles O6: CMP checks its register bytes in order, then its next `pc`, before which FL is not written. -/
theorem cmpWritesComparison : Obligations.CmpWritesComparison := by
  intro s b1 b2
  rw [Machine.exec_cmp]
  exact ⟨fun ra rb ha hb hn => Machine.exec_cmp_of_lt ha hb hn, Machine.withRegs_of_first_le,
    Machine.withRegs_of_second_le, Machine.withRegs_commit_of_le⟩

/-- Settles O7: with E set JEQ is JMP, and with E clear it only goes on, after the same check of its register byte. -/
theorem jeqJumpsOnEqual : Obligations.JeqJumpsOnEqual := by
  intro s b
  refine ⟨fun r hr h hn => ?taken, fun hb h hn => ?untaken, Machine.withReg_of_le, fun r hr h hn => ?takenOutside,
    fun hb h hn => ?untakenOutside⟩
  case taken => exact (Machine.exec_jeq_of_equal h).trans (Machine.exec_jmp_of_lt hr hn)
  case takenOutside => exact (Machine.exec_jeq_of_equal h).trans (Machine.exec_jmp_of_le hr hn)
  case untaken =>
    exact (Machine.exec_jeq_of_not_equal h).trans (Machine.withReg_commit_of_lt (r := ⟨b.toNat, hb⟩) rfl hn)
  case untakenOutside =>
    exact (Machine.exec_jeq_of_not_equal h).trans (Machine.withReg_commit_of_le (r := ⟨b.toNat, hb⟩) rfl hn)

/-- Settles O8: with L or G set JNE is JMP, and with both clear it only goes on, after the same check of its register
byte. -/
theorem jneJumpsOnLessOrGreater : Obligations.JneJumpsOnLessOrGreater := by
  intro s b
  refine ⟨fun r hr h hn => ?taken, fun hb hl hg hn => ?untaken, Machine.withReg_of_le, fun r hr h hn => ?takenOutside,
    fun hb hl hg hn => ?untakenOutside⟩
  case taken => exact (Machine.exec_jne_of_less_or_greater h).trans (Machine.exec_jmp_of_lt hr hn)
  case takenOutside => exact (Machine.exec_jne_of_less_or_greater h).trans (Machine.exec_jmp_of_le hr hn)
  case untaken =>
    exact (Machine.exec_jne_of_neither hl hg).trans (Machine.withReg_commit_of_lt (r := ⟨b.toNat, hb⟩) rfl hn)
  case untakenOutside =>
    exact (Machine.exec_jne_of_neither hl hg).trans (Machine.withReg_commit_of_le (r := ⟨b.toNat, hb⟩) rfl hn)

/-- Settles O32: a taken conditional jump is JMP, and every byte is an address of 256 bytes of memory. -/
theorem takenJumpsCompleteAt256 : Obligations.TakenJumpsCompleteAt256 := by
  intro s b r hc hr
  have hjmp : Machine.exec (.jmp b) s = _ := Machine.exec_jmp_of_memSize_eq hc hr
  exact ⟨hjmp, fun h => (Machine.exec_jeq_of_equal h).trans hjmp,
    fun h => (Machine.exec_jne_of_less_or_greater h).trans hjmp⟩

/-- Settles O37: the jump tests the flags that the comparison left, and the registers are as the comparison found
them. -/
theorem cmpDecidesTheNextJump : Obligations.CmpDecidesTheNextJump := by
  intro s b1 b2 b ra rb r ha hb hr hn htarget
  refine ⟨_, Machine.exec_cmp_of_lt ha hb (by omega), ?jeq, ?jne⟩
  case jeq =>
    rw [Machine.exec_jeq_of_compareFlags rfl]
    refine Machine.withReg_commit_of_lt hr ?_
    split
    · exact htarget
    · exact hn
  case jne =>
    rw [Machine.exec_jne_of_compareFlags rfl]
    refine Machine.withReg_commit_of_lt hr ?_
    split
    · exact hn
    · exact htarget

/-- Settles O39: the select names no operation, so there is nothing to write. -/
theorem unrecognisedAluOperationFails : Obligations.UnrecognisedAluOperationFails := by
  intro s ra rb select h
  simp only [List.mem_cons, List.not_mem_nil, or_false, not_or] at h
  obtain ⟨hadd, hsub, hmul⟩ := h
  simp only [Machine.aluInterface, Machine.AluOp.ofName?, hadd, hsub, hmul, if_false]

/-- Settles O17: both write the register that the first operand byte names and `pc`, or raise a fault. -/
theorem ldiAndMulFrame : Obligations.LdiAndMulFrame := by
  intro i b x hi s t h
  obtain ⟨hmem, hcfg⟩ := Machine.exec_memRead_cfg h
  have hfl : t.fl = s.fl := Machine.exec_fl_of_ne_cmp h (by rintro _ _ rfl; simp at hi)
  have hout : t.out = s.out := Machine.exec_out_of_ne_prn h (by rintro _ rfl; simp at hi)
  refine ⟨fun r hr => ?_, hfl, hmem, hout, hcfg, Machine.exec_status_fault h (by rintro rfl; simp at hi)⟩
  refine Machine.exec_getReg_eq h fun b' x' hi' => ?_
  obtain rfl : b = b' := by
    obtain rfl | rfl := hi <;> obtain ⟨⟨⟩⟩ | ⟨⟨⟩⟩ := hi' <;> rfl
  exact hr

/-- Settles O18: CMP writes FL and PRN the output, each with `pc`, or a fault is raised. -/
theorem cmpAndPrnFrame : Obligations.CmpAndPrnFrame := by
  intro i b x hi s t h
  obtain ⟨hmem, hcfg⟩ := Machine.exec_memRead_cfg h
  refine ⟨?_, hmem, hcfg, ?_, ?_, Machine.exec_status_fault h (by rintro rfl; simp at hi)⟩
  · exact fun r => Machine.exec_getReg_eq h (by rintro _ _ (rfl | rfl) <;> simp at hi)
  · rintro rfl
    exact Machine.exec_out_of_ne_prn h nofun
  · rintro rfl
    exact Machine.exec_fl_of_ne_cmp h nofun

/-- Settles O19: HALT writes the status and a jump `pc`, or the jump raises a fault. -/
theorem haltAndJumpsFrame : Obligations.HaltAndJumpsFrame := by
  intro i b hi s t h
  obtain ⟨hmem, hcfg⟩ := Machine.exec_memRead_cfg h
  refine ⟨?_, ?_, hmem, ?_, hcfg, ?_, Machine.exec_status_fault h⟩
  · exact fun r => Machine.exec_getReg_eq h (by rintro _ _ (rfl | rfl) <;> simp at hi)
  · exact Machine.exec_fl_of_ne_cmp h (by rintro _ _ rfl; simp at hi)
  · exact Machine.exec_out_of_ne_prn h (by rintro _ rfl; simp at hi)
  · rintro rfl
    cases h
    exact ⟨rfl, rfl⟩

end Sys2Proof

/-! PROOFS. A step is the pseudocode of R79; what follows from it for the outcomes of a step, its next `pc` and REG_INIT
(R8, R16, R19-R21, R67). -/

namespace Sys2Proof

namespace Machine

variable {s t u : State} {i : Instr} {a n : Nat} {op b b1 b2 : Byte} {r : Reg}

/-! ### The checks of the pseudocode, each before what follows it -/

/-- `u`, unless the address `a` is outside memory. -/
def State.unlessOutside (s : State) (a : Nat) (u : State) : State :=
  if s.cfg.memSize ≤ a then s.raised .outOfBoundsMemory a else u

/-- `u`, unless the operand byte `b` names no register. -/
def State.unlessNoRegister (s : State) (b : Byte) (u : State) : State :=
  if 8 ≤ b.toNat then s.raised .outOfBoundsRegister b.toNat else u

/-- `R[b]` as the pseudocode reads it. It unfolds by itself, since R79's conditions depend on it. -/
abbrev State.regAt (s : State) (b : Byte) : Byte := (s.regs[b.toNat]?).getD 0#8

theorem unlessOutside_of_le (h : s.cfg.memSize ≤ a) : s.unlessOutside a u = s.raised .outOfBoundsMemory a := if_pos h

theorem unlessOutside_of_lt (h : a < s.cfg.memSize) : s.unlessOutside a u = u := if_neg (Nat.not_le.2 h)

theorem unlessNoRegister_of_le (h : 8 ≤ b.toNat) : s.unlessNoRegister b u = s.raised .outOfBoundsRegister b.toNat :=
  if_pos h

theorem unlessNoRegister_of_lt (h : b.toNat < 8) : s.unlessNoRegister b u = u := if_neg (Nat.not_le.2 h)

theorem getReg_eq_regAt (hr : b.toNat = r.val) : s.getReg r = s.regAt b := by
  simp [State.regAt, State.getReg, hr]

/-- Writing the register that `b` names, and `pc`. -/
theorem setReg_setPc_eq {v : Byte} (hr : b.toNat = r.val) :
    (s.setReg r v).setPc n = { s with regs := s.regs.setIfInBounds b.toNat v, pc := n } := by
  have hset : s.regs.set r.val v = s.regs.setIfInBounds b.toNat v := by
    rw [hr]
    exact Vector.ext fun i hi => by rw [Vector.getElem_set, Vector.getElem_setIfInBounds]
  rw [← hset]
  rfl

theorem commit_eq : commit s t n = .next (s.unlessOutside n (t.setPc n)) := by
  by_cases h : n < s.cfg.memSize
  · rw [commit_of_lt h, unlessOutside_of_lt h]
  · rw [commit_of_le (Nat.not_lt.1 h), unlessOutside_of_le (Nat.not_lt.1 h)]

theorem withReg_eq {k : Reg → Result} (h : ∀ r : Reg, b.toNat = r.val → k r = .next u) :
    withReg b s k = .next (s.unlessNoRegister b u) := by
  by_cases hb : b.toNat < 8
  · rw [withReg_of_names (r := ⟨b.toNat, hb⟩) rfl, unlessNoRegister_of_lt hb, h _ rfl]
  · rw [withReg_of_le (Nat.not_lt.1 hb), unlessNoRegister_of_le (Nat.not_lt.1 hb)]

section
variable (hs : s.status = .running) (hpc : s.pc < s.cfg.memSize) (hop : Memory.read s.cfg s.mem s.pc = op)
include hs hpc hop

/-- A row of format FR: its operand byte in memory, then the instruction. -/
theorem step_eq_of_FR {mk : Byte → Instr} (hd : ∀ rest, decode (op :: rest) = decodeFR mk rest)
    (hx : exec (mk (Memory.read s.cfg s.mem (s.pc + 1))) s = .next u) :
    step s = .next (s.unlessOutside (s.pc + 1) u) := by
  have hm : s.memRead s.pc = some op := memRead_eq_some.2 ⟨hpc, hop⟩
  by_cases h1 : s.pc + 1 < s.cfg.memSize
  · rw [step_of_FR hs hm hd (memRead_of_lt h1), unlessOutside_of_lt h1, hx]
  · rw [step_of_no_operand hs hm (hd []) (memRead_of_le (Nat.not_lt.1 h1)), unlessOutside_of_le (Nat.not_lt.1 h1)]

/-- A row of format FRI or FRR: its operand bytes in memory, in their order, then the instruction. -/
theorem step_eq_of_FRR {mk : Byte → Byte → Instr} (hd : ∀ rest, decode (op :: rest) = decodeFRR mk rest)
    (hx : exec (mk (Memory.read s.cfg s.mem (s.pc + 1)) (Memory.read s.cfg s.mem (s.pc + 2))) s = .next u) :
    step s = .next (s.unlessOutside (s.pc + 1) (s.unlessOutside (s.pc + 2) u)) := by
  have hm : s.memRead s.pc = some op := memRead_eq_some.2 ⟨hpc, hop⟩
  by_cases h1 : s.pc + 1 < s.cfg.memSize
  · rw [unlessOutside_of_lt h1]
    by_cases h2 : s.pc + 2 < s.cfg.memSize
    · rw [step_of_FRR hs hm hd (memRead_of_lt h1) (memRead_of_lt h2), unlessOutside_of_lt h2, hx]
    · rw [step_of_FRR_second_operand_missing hs hm hd (memRead_of_lt h1) (memRead_of_le (Nat.not_lt.1 h2)),
        unlessOutside_of_le (Nat.not_lt.1 h2)]
  · rw [step_of_no_operand hs hm (hd []) (memRead_of_le (Nat.not_lt.1 h1)), unlessOutside_of_le (Nat.not_lt.1 h1)]

end

/-! ### The meanings, in the pseudocode's terms -/

theorem exec_ldi_eq :
    exec (.ldi b1 b2) s =
      .next (s.unlessNoRegister b1 (s.unlessOutside (s.pc + 3)
        { s with regs := s.regs.setIfInBounds b1.toNat b2, pc := s.pc + 3 })) :=
  withReg_eq fun _ hr => by rw [commit_eq, setReg_setPc_eq hr]

theorem exec_prn_eq :
    exec (.prn b) s =
      .next (s.unlessNoRegister b (s.unlessOutside (s.pc + 2) ((s.emit (s.regAt b)).setPc (s.pc + 2)))) :=
  withReg_eq fun _ hr => by rw [commit_eq, getReg_eq_regAt hr]

theorem exec_mul_eq :
    exec (.mul b1 b2) s =
      .next (s.unlessNoRegister b1 (s.unlessNoRegister b2 (s.unlessOutside (s.pc + 3)
        { s with
          regs := s.regs.setIfInBounds b1.toNat
            (BitVec.ofNat 8 ((s.regAt b1).toNat * (s.regAt b2).toNat % 256))
          pc := s.pc + 3 }))) :=
  withReg_eq fun _ ha => withReg_eq fun _ hb => by
    beta_reduce
    rw [commit_eq, alu, setReg_setPc_eq ha, AluOp.result_mul, getReg_eq_regAt ha, getReg_eq_regAt hb]

theorem exec_cmp_eq :
    exec (.cmp b1 b2) s =
      .next (s.unlessNoRegister b1 (s.unlessNoRegister b2 (s.unlessOutside (s.pc + 3)
        ((s.setFl (compareFlags (s.regAt b1) (s.regAt b2))).setPc (s.pc + 3))))) :=
  withReg_eq fun _ ha => withReg_eq fun _ hb => by
    beta_reduce
    rw [commit_eq, getReg_eq_regAt ha, getReg_eq_regAt hb]

/-- A jump asks for the next `pc` `n`, whichever register its operand byte names. -/
theorem withReg_commit_pc_eq {next : Reg → Nat} (hn : ∀ r : Reg, b.toNat = r.val → next r = n) :
    withReg b s (fun r => commit s s (next r)) = .next (s.unlessNoRegister b (s.unlessOutside n (s.setPc n))) :=
  withReg_eq fun r hr => by rw [hn r hr, commit_eq]

theorem exec_jmp_eq :
    exec (.jmp b) s =
      .next (s.unlessNoRegister b (s.unlessOutside (s.regAt b).toNat (s.setPc (s.regAt b).toNat))) :=
  withReg_commit_pc_eq (s := s) (next := fun r => (s.getReg r).toNat) fun _ hr => by rw [getReg_eq_regAt hr]

theorem exec_jeq_eq (hn : (if s.fl[0] = true then (s.regAt b).toNat else s.pc + 2) = n) :
    exec (.jeq b) s = .next (s.unlessNoRegister b (s.unlessOutside n (s.setPc n))) :=
  withReg_commit_pc_eq fun _ hr => by rw [getReg_eq_regAt hr]; exact hn

theorem exec_jne_eq (hn : (if s.fl[1] = true ∨ s.fl[2] = true then (s.regAt b).toNat else s.pc + 2) = n) :
    exec (.jne b) s = .next (s.unlessNoRegister b (s.unlessOutside n (s.setPc n))) := by
  rw [exec_jne]
  exact withReg_commit_pc_eq fun _ hr => by rw [getReg_eq_regAt hr]; exact hn

/-! ### The pseudocode (R79) -/

theorem stepPseudocode_of_outside (h : s.cfg.memSize ≤ s.pc) :
    stepPseudocode s = s.raised .outOfBoundsMemory s.pc := if_pos h

theorem step_of_outside (hs : s.status = .running) (h : s.cfg.memSize ≤ s.pc) :
    step s = .next (s.raised .outOfBoundsMemory s.pc) :=
  step_of_decode_truncated (k := 0) hs (by rw [fetchWindow_none h]; rfl)

theorem step_eq_pseudocode_of_unknown_byte (hs : s.status = .running) (hpc : s.pc < s.cfg.memSize)
    (hop : Memory.read s.cfg s.mem s.pc ∉ opmapBytes) : step s = .next (stepPseudocode s) := by
  have hin : ¬ s.cfg.memSize ≤ s.pc := Nat.not_le.2 hpc
  rw [step_of_unknown_byte hs hpc hop]
  cases hp : s.cfg.unknownOpcode with
  | fault =>
    rw [unknownOpcodeStep_of_fault hp]
    simp only [stepPseudocode, hin, hop, hp, if_false, if_true, not_false_eq_true]
  | skip =>
    rw [unknownOpcodeStep_of_skip hp, commit_eq]
    simp [stepPseudocode, hin, hop, hp, State.unlessOutside, State.setPc]

theorem step_eq_pseudocode_of_known_byte (hs : s.status = .running) (hpc : s.pc < s.cfg.memSize) {o : Opcode}
    (hop : Memory.read s.cfg s.mem s.pc = o.byte) : step s = .next (stepPseudocode s) := by
  have hin : ¬ s.cfg.memSize ≤ s.pc := Nat.not_le.2 hpc
  cases o with
  | halt =>
    rw [step_of_halt_byte hs (memRead_eq_some.2 ⟨hpc, hop⟩)]
    simp [stepPseudocode, hin, hop, Opcode.byte, opmapBytes, State.setStatus]
  | ldi =>
    rw [step_eq_of_FRR hs hpc hop (decode_byte_cons .ldi) exec_ldi_eq]
    simp [stepPseudocode, hin, hop, Opcode.byte, opmapBytes, State.unlessOutside, State.unlessNoRegister]
  | prn =>
    rw [step_eq_of_FR hs hpc hop (decode_byte_cons .prn) exec_prn_eq]
    simp [stepPseudocode, hin, hop, Opcode.byte, opmapBytes, State.unlessOutside, State.unlessNoRegister, State.emit,
      State.setPc]
  | mul =>
    rw [step_eq_of_FRR hs hpc hop (decode_byte_cons .mul) exec_mul_eq]
    simp [stepPseudocode, hin, hop, Opcode.byte, opmapBytes, State.unlessOutside, State.unlessNoRegister]
  | jmp =>
    rw [step_eq_of_FR hs hpc hop (decode_byte_cons .jmp) exec_jmp_eq]
    simp [stepPseudocode, hin, hop, Opcode.byte, opmapBytes, State.unlessOutside, State.unlessNoRegister, State.setPc]
  | cmp =>
    rw [step_eq_of_FRR hs hpc hop (decode_byte_cons .cmp) exec_cmp_eq]
    simp [stepPseudocode, hin, hop, Opcode.byte, opmapBytes, State.unlessOutside, State.unlessNoRegister, State.setFl,
      State.setPc, compareFlags]
  | jeq =>
    rw [step_eq_of_FR hs hpc hop (decode_byte_cons .jeq) (exec_jeq_eq rfl)]
    simp [stepPseudocode, hin, hop, Opcode.byte, opmapBytes, State.unlessOutside, State.unlessNoRegister, State.setPc]
  | jne =>
    rw [step_eq_of_FR hs hpc hop (decode_byte_cons .jne) (exec_jne_eq rfl)]
    simp [stepPseudocode, hin, hop, Opcode.byte, opmapBytes, State.unlessOutside, State.unlessNoRegister, State.setPc]

theorem step_eq_pseudocode (hs : s.status = .running) : step s = .next (stepPseudocode s) := by
  by_cases hpc : s.pc < s.cfg.memSize
  · cases ho : Opcode.ofByte? (Memory.read s.cfg s.mem s.pc) with
    | none => exact step_eq_pseudocode_of_unknown_byte hs hpc (ofByte?_eq_none_iff_notMem.1 ho)
    | some o => exact step_eq_pseudocode_of_known_byte hs hpc (Opcode.byte_of_ofByte? ho).symm
  · rw [step_of_outside hs (Nat.not_lt.1 hpc), stepPseudocode_of_outside (Nat.not_lt.1 hpc)]

/-! ### The outcome of a step, and its next `pc` -/

/-- A Running core's step leaves it Running, or halts it by HALT's byte, or raises a fault (R8, R67). -/
theorem step_outcomes (h : step s = .next t) :
    (t.status = .running ∧ t.fault = s.fault) ∨
      (t.status = .halted ∧ t.fault = s.fault ∧ s.memRead s.pc = some 0x01#8) ∨
      (t.status = .faulted ∧ ∃ f, t.fault = some f) := by
  obtain ⟨hs, ⟨i, hop, he⟩ | ⟨kind, detail, rfl⟩ | rfl⟩ := effect_or_raised_or_skip_of_step h
  · obtain rfl | hi := eq_or_ne i .halt
    · cases he
      exact .inr (.inl ⟨rfl, rfl, hop⟩)
    · exact .inl ⟨(he.status_eq hi).trans hs, he.fault_eq⟩
  · exact .inr (.inr ⟨rfl, _, rfl⟩)
  · exact .inl ⟨hs, rfl⟩

/-- A completed instruction's next `pc` was checked (R73), or it is HALT's own. -/
theorem Effect.pc_lt (h : Effect s i t) (hpc : s.pc < s.cfg.memSize) : t.pc < s.cfg.memSize := by
  cases h with
  | halt => exact hpc
  | ldi _ hn | prn _ hn | jmp _ hn => exact hn
  | mul _ _ hn | cmp _ _ hn | jeq _ _ hn | jne _ _ hn => exact hn

theorem Effect.pc_cases (h : Effect s i t) :
    t.pc = s.pc ∨ t.pc = s.pc + 2 ∨ t.pc = s.pc + 3 ∨ ∃ r, t.pc = (s.getReg r).toNat := by
  cases h with
  | halt => exact .inl rfl
  | prn => exact .inr (.inl rfl)
  | ldi | mul | cmp => exact .inr (.inr (.inl rfl))
  | jmp => exact .inr (.inr (.inr ⟨_, rfl⟩))
  | jeq _ he _ | jne _ he _ =>
    subst he
    split
    · exact .inr (.inr (.inr ⟨_, rfl⟩))
    · exact .inr (.inl rfl)

theorem step_pc_lt (hpc : s.pc < s.cfg.memSize) (h : step s = .next t) : t.pc < s.cfg.memSize := by
  obtain ⟨-, ⟨i, rest, -, he⟩ | hf | ⟨op, -, -, ⟨-, rfl⟩ | ⟨-, hn, rfl⟩⟩⟩ := step_cases h
  · exact he.pc_lt hpc
  · obtain ⟨kind, detail, rfl⟩ := hf.exists_eq_raised
    exact hpc
  · exact hpc
  · exact hn

theorem step_pc_cases (h : step s = .next t) :
    t.pc = s.pc ∨ t.pc = s.pc + 1 ∨ t.pc = s.pc + 2 ∨ t.pc = s.pc + 3 ∨ ∃ r, t.pc = (s.getReg r).toNat := by
  obtain ⟨-, ⟨i, -, he⟩ | ⟨kind, detail, rfl⟩ | rfl⟩ := effect_or_raised_or_skip_of_step h
  · exact he.pc_cases.imp_right .inr
  · exact .inl rfl
  · exact .inr (.inl rfl)

/-! ### REG_INIT (R16) -/

section
variable (s : State) (regInit : Vector Byte 7)

/-- MEM_INIT, not REG_INIT, is what unlisted cells hold. -/
theorem read_withRegInit (m : Memory) (a : Nat) :
    Memory.read (s.withRegInit regInit).cfg m a = Memory.read s.cfg m a := by
  induction m with
  | nil => rfl
  | cons e m ih => simp only [Memory.read, ih]

theorem ite_withRegInit (p : Prop) [Decidable p] (t u : State) :
    (if p then t else u).withRegInit regInit = if p then t.withRegInit regInit else u.withRegInit regInit :=
  apply_ite (State.withRegInit · regInit) p t u

/-- The pseudocode names no REG_INIT. -/
theorem stepPseudocode_withRegInit :
    stepPseudocode (s.withRegInit regInit) = (stepPseudocode s).withRegInit regInit := by
  simp only [stepPseudocode, ite_withRegInit, read_withRegInit]
  rfl

end

end Machine

/-- Settles O30: pc outside memory, an unknown byte, or one of the eight rows, whose checks the pseudocode makes in the
same order. -/
theorem stepIsThePseudocode : Obligations.StepIsThePseudocode := fun _ => Machine.step_eq_pseudocode

/-- Settles O27: a Running core's step is the pseudocode's, which answers a state, and another core has no step. -/
theorem stepHasOneOfThreeOutcomes : Obligations.StepHasOneOfThreeOutcomes :=
  ⟨fun _ hs => ⟨_, Machine.step_eq_pseudocode hs, Machine.step_outcomes (Machine.step_eq_pseudocode hs)⟩,
    fun _ => Machine.step_of_not_running⟩

/-- Settles O31: every next `pc` but HALT's own is checked, and none is computed modulo anything. -/
theorem nextPcIsInMemory : Obligations.NextPcIsInMemory :=
  fun _ _ hpc h => ⟨Machine.step_pc_lt hpc h, Machine.step_pc_cases h⟩

/-- Settles O42: a step is the pseudocode, which names no REG_INIT. -/
theorem regInitMattersAtResetOnly : Obligations.RegInitMattersAtResetOnly := by
  intro s t regInit h
  have hs : s.status = .running := (Machine.step_cases h).1
  rw [Machine.step_eq_pseudocode hs] at h
  cases h
  rw [← Machine.stepPseudocode_withRegInit]
  exact Machine.step_eq_pseudocode hs

end Sys2Proof

/-! PROOFS. The core's invariant: it holds after reset, and every step, host operation and run keeps it (R19, R24, R30,
R33, R42); and a canonical memory is determined by what it reads (R33). -/

namespace Sys2Proof

namespace Machine

variable {s t : State} {i : Instr}

/-! ### A step and the invariant -/

/-- A state that is not Faulted and has no record meets the invariant by its memory, its `pc` and its FL. -/
theorem State.Inv.of_no_fault (h : s.Inv) (hcfg : t.cfg = s.cfg) (hmem : Memory.wf s.cfg t.mem = true)
    (hpc : t.pc < s.cfg.memSize) (hfl : t.fl = 0#8 ∨ t.fl = 1#8 ∨ t.fl = 2#8 ∨ t.fl = 4#8)
    (hfault : t.fault = none) (hstatus : t.status ≠ .faulted) : t.Inv where
  cfg_wf := hcfg ▸ h.cfg_wf
  mem_wf := hcfg ▸ hmem
  pc_lt := hcfg ▸ hpc
  fl_legal := hfl
  fault_none_iff := iff_of_true hfault hstatus
  fault_pc := by simp [hfault]
  fault_plausible := by simp [hfault]

/-- A fault raised with a record that fits its kind keeps the invariant. -/
theorem State.Inv.raised {kind : FaultKind} {detail : Nat} (h : s.Inv)
    (hf : FaultRecord.plausible s.cfg ⟨kind, s.pc, detail⟩) : (s.raised kind detail).Inv where
  cfg_wf := h.cfg_wf
  mem_wf := h.mem_wf
  pc_lt := h.pc_lt
  fl_legal := h.fl_legal
  fault_none_iff := by simp
  fault_pc := by simp
  fault_plausible := by simpa using hf

theorem State.Inv.raisedFrom (h : s.Inv) (hf : RaisedFrom s t) : t.Inv := by
  obtain ⟨d, hd, rfl⟩ | ⟨b, hb, rfl⟩ := hf
  · exact h.raised hd
  · exact h.raised ⟨hb, b.isLt⟩

theorem State.Inv.fault_eq_none (h : s.Inv) (hs : s.status ≠ .faulted) : s.fault = none := h.fault_none_iff.2 hs

theorem Effect.fl_legal (h : Effect s i t) (hs : s.Inv) : t.fl = 0#8 ∨ t.fl = 1#8 ∨ t.fl = 2#8 ∨ t.fl = 4#8 := by
  obtain hfl | ⟨ba, bb, rfl, -⟩ := h.fl_cases
  · exact hfl ▸ hs.fl_legal
  · exact .inr h.cmp_fl

theorem State.Inv.effect (h : s.Inv) (hs : s.status = .running) (he : Effect s i t) : t.Inv := by
  refine h.of_no_fault he.cfg_eq (he.mem_eq ▸ h.mem_wf) (he.pc_lt h.pc_lt) (he.fl_legal h) ?_ ?_
  · exact he.fault_eq.trans (h.fault_eq_none (by simp [hs]))
  · obtain ht | ht := he.status_cases <;> simp [ht, hs]

/-- The record of an unknown opcode byte names a byte outside `OPMAP` (R98, R99). -/
theorem plausible_unknownOpcode {c : Config} {a : Nat} {op : Byte} (h : Opcode.ofByte? op = none) :
    FaultRecord.plausible c ⟨.unknownOpcode, a, op.toNat⟩ := by
  refine ⟨op.isLt, ?_⟩
  simpa using ofByte?_eq_none_iff_notMem.1 h

theorem State.Inv.step (h : s.Inv) (hstep : step s = .next t) : t.Inv := by
  obtain ⟨hs, ⟨i, rest, -, he⟩ | hf | ⟨op, -, hop, ⟨-, rfl⟩ | ⟨-, hn, rfl⟩⟩⟩ := step_cases hstep
  · exact h.effect hs he
  · exact h.raisedFrom hf
  · exact h.raised (plausible_unknownOpcode hop)
  · exact h.of_no_fault rfl h.mem_wf hn h.fl_legal (h.fault_eq_none (by simp [hs])) (by simp [hs])

/-! ### Reset, the memory port and the run -/

theorem State.Inv.resetWith {c : Config} (hc : 1 ≤ c.memSize) : (State.resetWith c).Inv where
  cfg_wf := hc
  mem_wf := State.resetWith_mem_wf c
  pc_lt := hc
  fl_legal := .inl rfl
  fault_none_iff := by simp [State.resetWith]
  fault_pc := nofun
  fault_plausible := nofun

theorem State.Inv.withMem {m : Memory} (h : s.Inv) (hm : Memory.wf s.cfg m = true) : (s.withMem m).Inv where
  cfg_wf := h.cfg_wf
  mem_wf := hm
  pc_lt := h.pc_lt
  fl_legal := h.fl_legal
  fault_none_iff := h.fault_none_iff
  fault_pc := h.fault_pc
  fault_plausible := h.fault_plausible

/-- A write that succeeds put one byte in memory and changed nothing else (R39). -/
theorem hostWrite_eq_ok {x v : Int} (h : hostWrite x v s = .ok t) :
    ∃ a b, a < s.cfg.memSize ∧ t = s.withMem (Memory.write s.cfg s.mem a b) := by
  obtain ⟨-, h⟩ := whenStopped_eq_ok h
  cases ha : addrOf? s.cfg x with
  | none => simp [ha] at h
  | some a =>
    cases hb : byteOf? v with
    | none => simp [ha, hb] at h
    | some b =>
      simp only [ha, hb] at h
      cases h
      exact ⟨a, b, (addrOf?_eq_some.1 ha).2, rfl⟩

/-- A load that succeeds put an image in memory and changed nothing else (R40). -/
theorem hostLoad_eq_ok {xs : List Int} (h : hostLoad xs s = .ok t) :
    ∃ bs, t = s.withMem (Memory.writeBytes s.cfg s.mem 0 bs) := by
  obtain ⟨-, h⟩ := whenStopped_eq_ok h
  split at h
  · cases h
  · cases hb : bytesOf xs with
    | error e => simp [hb] at h
    | ok bs =>
      simp only [hb] at h
      cases h
      exact ⟨bs, rfl⟩

theorem hostReset_eq_ok (h : hostReset s = .ok t) : t = State.resetWith s.cfg := by
  obtain ⟨-, h⟩ := whenStopped_eq_ok h
  cases h
  rfl

/-- What every step keeps holds where a run loop returns, which is at a core that is not Running. -/
theorem runLoop_induction {P : State → Prop} (hP : ∀ u v, P u → step u = .next v → P v) {n : Nat} (h0 : P s)
    (h : runLoop n s = .returned t) : P t ∧ t.status ≠ .running := by
  induction n generalizing s with
  | zero =>
    by_cases hs : s.status = .running
    · simp [runLoop, hs] at h
    · rw [runLoop_of_not_running hs] at h
      cases h
      exact ⟨h0, hs⟩
  | succ n ih =>
    by_cases hs : s.status = .running
    · have hstep := step_eq_pseudocode hs
      rw [runLoop_succ_of_step hstep] at h
      exact ih (hP _ _ h0 hstep) h
    · rw [runLoop_of_not_running hs] at h
      cases h
      exact ⟨h0, hs⟩

theorem hostRun_of_idle {fuel : Nat} (hs : s.status = .idle) :
    hostRun fuel s = .ok (runLoop fuel (s.setStatus .running)) := by
  simp only [hostRun, hs]

theorem hostRun_of_stopped {fuel : Nat} (hs : s.status = .halted ∨ s.status = .faulted) :
    hostRun fuel s = .ok (.returned s) := by
  obtain hs | hs := hs <;> simp only [hostRun, hs]

theorem hostRun_of_running {fuel : Nat} (hs : s.status = .running) : hostRun fuel s = .error .busy := by
  simp only [hostRun, hs]

/-- A run that returns did so at once, from Halted or Faulted, or ran the loop from Idle (R78). -/
theorem hostRun_eq_returned {fuel : Nat} (h : hostRun fuel s = .ok (.returned t)) :
    (s.status = .halted ∨ s.status = .faulted) ∧ t = s ∨
      s.status = .idle ∧ runLoop fuel (s.setStatus .running) = .returned t := by
  cases hs : s.status with
  | idle =>
    rw [hostRun_of_idle hs] at h
    exact .inr ⟨rfl, Except.ok.inj h⟩
  | running => cases (hostRun_of_running hs).symm.trans h
  | halted =>
    cases (hostRun_of_stopped (.inl hs)).symm.trans h
    exact .inl ⟨.inl rfl, rfl⟩
  | faulted =>
    cases (hostRun_of_stopped (.inr hs)).symm.trans h
    exact .inl ⟨.inr rfl, rfl⟩

/-- The start of a run (R78) keeps the invariant. -/
theorem State.Inv.start (h : s.Inv) (hs : s.status = .idle) : (s.setStatus .running).Inv :=
  h.of_no_fault rfl h.mem_wf h.pc_lt h.fl_legal (h.fault_eq_none (by simp [hs])) (by simp)

theorem State.Inv.hostRun {fuel : Nat} (h : s.Inv) (hrun : hostRun fuel s = .ok (.returned t)) : t.Inv := by
  obtain ⟨-, rfl⟩ | ⟨hs, hloop⟩ := hostRun_eq_returned hrun
  · exact h
  · exact (runLoop_induction (P := State.Inv) (fun _ _ => State.Inv.step) (h.start hs) hloop).1

/-! ### Canonical memories (R33) -/

variable {c : Config} {m m' : Memory} {lo a : Nat} {b : Byte}

theorem Memory.read_cons_self : Memory.read c ((a, b) :: m) a = b := by
  simp [Memory.read]

theorem Memory.read_cons_of_ne {x : Nat} (h : x ≠ a) : Memory.read c ((a, b) :: m) x = Memory.read c m x := by
  simp [Memory.read, h.symm]

/-- A canonical memory that lists a cell reads otherwise there than one whose cells all lie above it. -/
theorem Memory.read_ne_of_listed (h : Memory.wfFrom c lo ((a, b) :: m) = true)
    (h' : Memory.wfFrom c (a + 1) m' = true) : Memory.read c ((a, b) :: m) a ≠ Memory.read c m' a := by
  obtain ⟨-, -, hb, -⟩ := Memory.wfFrom_cons.1 h
  rwa [Memory.read_cons_self, Memory.read_of_lt h' (Nat.lt_succ_self a)]

/-- Memories in canonical form that read alike begin with the same cell, and so do their rests. -/
theorem Memory.eq_of_read_eq (h : Memory.wfFrom c lo m = true) (h' : Memory.wfFrom c lo m' = true)
    (hr : ∀ a, a < c.memSize → Memory.read c m a = Memory.read c m' a) : m = m' := by
  induction m generalizing lo m' with
  | nil =>
    rcases m' with _ | ⟨⟨k, b⟩, m'⟩
    · rfl
    · have hk := (Memory.wfFrom_cons.1 h').2.1
      exact absurd (hr k hk).symm (Memory.read_ne_of_listed h' rfl)
  | cons e m ih =>
    obtain ⟨k, b⟩ := e
    obtain ⟨-, hk, hb, hm⟩ := Memory.wfFrom_cons.1 h
    rcases m' with _ | ⟨⟨k', b'⟩, m'⟩
    · exact absurd (hr k hk) (Memory.read_ne_of_listed h rfl)
    · obtain ⟨-, hk', hb', hm'⟩ := Memory.wfFrom_cons.1 h'
      obtain hlt | rfl | hgt := Nat.lt_trichotomy k k'
      · exact absurd (hr k hk) (Memory.read_ne_of_listed h (Memory.wfFrom_cons.2 ⟨hlt, hk', hb', hm'⟩))
      · obtain rfl : b = b' := by simpa only [Memory.read_cons_self] using hr k hk
        refine congrArg _ (ih hm hm' fun a ha => ?_)
        by_cases hak : a = k
        · have hlt : a < k + 1 := hak ▸ Nat.lt_succ_self k
          rw [Memory.read_of_lt hm hlt, Memory.read_of_lt hm' hlt]
        · simpa only [Memory.read_cons_of_ne hak] using hr a ha
      · exact absurd (hr k' hk').symm (Memory.read_ne_of_listed h' (Memory.wfFrom_cons.2 ⟨hgt, hk, hb, hm⟩))

end Machine

/-- Settles O33: a step completes an instruction, raises a fault whose record fits, or skips an unknown byte, and each
keeps every clause. -/
theorem stepKeepsInvariant : Obligations.StepKeepsInvariant := fun _ _ h hstep => h.step hstep

/-- Settles O34: every clause holds of the reset values. -/
theorem invariantAtReset : Obligations.InvariantAtReset :=
  ⟨fun _ => Machine.State.Inv.resetWith, Machine.State.Inv.resetWith (by decide)⟩

/-- Settles O47: the memory port keeps the canonical form, reset gives its values, and a run is steps. -/
theorem hostOperationsKeepInvariant : Obligations.HostOperationsKeepInvariant := by
  intro s t h
  refine ⟨fun x v hw => ?_, fun xs hl => ?_, fun hr => ?_, fun fuel hrun => h.hostRun hrun⟩
  · obtain ⟨a, b, ha, rfl⟩ := Machine.hostWrite_eq_ok hw
    exact h.withMem (Machine.Memory.write_wf h.mem_wf ha)
  · obtain ⟨bs, rfl⟩ := Machine.hostLoad_eq_ok hl
    exact h.withMem (Machine.Memory.writeBytes_wf h.mem_wf)
  · rw [Machine.hostReset_eq_ok hr]
    exact .resetWith h.cfg_wf

/-- Settles O43: a canonical memory lists the addresses that read otherwise than at reset, in their order. -/
theorem canonicalMemoriesAreExtensional : Obligations.CanonicalMemoriesAreExtensional :=
  fun _ _ _ h h' hr => Machine.Memory.eq_of_read_eq h h' hr

end Sys2Proof

/-! PROOFS. Reset and the run: what reset gives, how a run ends, and that a stopped core waits for reset (R67, R78,
R108, R115-R119, R124). -/

namespace Sys2Proof

namespace Machine

variable {s t u : State}

/-! ### Reset (R115) -/

theorem hostReset_of_not_running (hs : s.status ≠ .running) : hostReset s = .ok (State.resetWith s.cfg) :=
  whenStopped_of_not_running hs

theorem memRead_resetWith {c : Config} {a : Nat} (ha : a < c.memSize) :
    (State.resetWith c).memRead a = some (c.memInitAt a) :=
  if_pos ha

theorem getReg_resetWith_of_lt {c : Config} {k : Nat} (h : k < 7) :
    (State.resetWith c).getReg ⟨k, by omega⟩ = c.regInit[k] :=
  Vector.getElem_push_lt h

theorem getReg_resetWith_seven {c : Config} : (State.resetWith c).getReg 7 = 0xF4#8 :=
  Vector.getElem_push_eq

/-! ### A stopped core (R67, R78, R102) -/

theorem ne_running_of_stopped (hs : s.status = .halted ∨ s.status = .faulted) : s.status ≠ .running := by
  obtain hs | hs := hs <;> simp [hs]

theorem hostWrite_status_fault {x v : Int} (h : hostWrite x v s = .ok t) :
    t.status = s.status ∧ t.fault = s.fault := by
  obtain ⟨a, b, -, rfl⟩ := hostWrite_eq_ok h
  exact ⟨rfl, rfl⟩

theorem hostLoad_status_fault {xs : List Int} (h : hostLoad xs s = .ok t) :
    t.status = s.status ∧ t.fault = s.fault := by
  obtain ⟨bs, rfl⟩ := hostLoad_eq_ok h
  exact ⟨rfl, rfl⟩

/-! ### A run (R78, R111, R119, R124) -/

/-- What a run that started at `s` with no record has of its state after any number of steps. -/
structure ReachedFrom (s u : State) : Prop where
  outcome : (u.status = .running ∧ u.fault = none) ∨ (u.status = .halted ∧ u.fault = none) ∨
    (u.status = .faulted ∧ ∃ f, u.fault = some f)
  mem_eq : u.mem = s.mem
  cfg_eq : u.cfg = s.cfg
  out_grows : s.out <+: u.out

theorem step_out_grows (h : step s = .next t) : s.out <+: t.out := by
  obtain hout | ⟨-, -, r, hout⟩ := step_out_cases h
  · exact ⟨[], (List.append_nil _).trans hout.symm⟩
  · exact ⟨_, hout.symm⟩

theorem ReachedFrom.step (h : ReachedFrom s u) (hstep : step u = .next t) : ReachedFrom s t := by
  obtain ⟨hrun, -⟩ := step_cases hstep
  obtain ⟨hmem, hcfg⟩ := step_mem_cfg hstep
  have hnone : u.fault = none := by
    obtain ⟨-, hf⟩ | ⟨hs, -⟩ | ⟨hs, -⟩ := h.outcome
    · exact hf
    · cases hrun.symm.trans hs
    · cases hrun.symm.trans hs
  refine ⟨?_, hmem.trans h.mem_eq, hcfg.trans h.cfg_eq, h.out_grows.trans (step_out_grows hstep)⟩
  obtain ⟨hs, hf⟩ | ⟨hs, hf, -⟩ | hfaulted := step_outcomes hstep
  · exact .inl ⟨hs, hf.trans hnone⟩
  · exact .inr (.inl ⟨hs, hf.trans hnone⟩)
  · exact .inr (.inr hfaulted)

theorem reachedFrom_start (hf : s.fault = none) : ReachedFrom s (s.setStatus .running) :=
  ⟨.inl ⟨rfl, hf⟩, rfl, rfl, [], List.append_nil _⟩

/-- A run from Idle with no record returns a state that its steps reached, no longer Running. -/
theorem reachedFrom_of_hostRun {fuel : Nat} (hs : s.status = .idle) (hf : s.fault = none)
    (h : hostRun fuel s = .ok (.returned t)) : ReachedFrom s t ∧ t.status ≠ .running := by
  rw [hostRun_of_idle hs] at h
  exact runLoop_induction (P := ReachedFrom s) (fun _ _ => ReachedFrom.step) (reachedFrom_start hf) (Except.ok.inj h)

/-- A loop that returns within `n` steps returns the same within any more. -/
theorem runLoop_mono {n m : Nat} (hnm : n ≤ m) (h : runLoop n s = .returned t) : runLoop m s = .returned t := by
  induction n generalizing s m with
  | zero =>
    have hs : s.status ≠ .running := fun hs => by simp [runLoop, hs] at h
    rwa [runLoop_of_not_running hs] at h ⊢
  | succ n ih =>
    obtain ⟨k, rfl⟩ := Nat.exists_eq_add_of_lt hnm
    by_cases hs : s.status = .running
    · have hstep := step_eq_pseudocode hs
      rw [runLoop_succ_of_step hstep] at h ⊢
      exact ih (Nat.le_add_right n k) h
    · rwa [runLoop_of_not_running hs] at h ⊢

end Machine

/-- Settles O44: reset gives the configuration's values, and any other operation of a stopped core keeps its status. -/
theorem resetSetsEveryResetValue : Obligations.ResetSetsEveryResetValue := by
  intro s
  refine ⟨fun hs => ⟨_, Machine.hostReset_of_not_running hs, rfl, fun a => Machine.memRead_resetWith,
    fun k hk => Machine.getReg_resetWith_of_lt hk, Machine.getReg_resetWith_seven, rfl, rfl, rfl, rfl, rfl⟩,
    Machine.whenStopped_of_running, fun hs t ht => ⟨?step, fun fuel => ?run, fun x v h => ?write, fun xs h => ?load⟩⟩
  case step => exact Machine.step_ne_next_of_not_running (Machine.ne_running_of_stopped hs)
  case run =>
    rw [Machine.hostRun_of_stopped hs]
    refine ⟨?_, nofun⟩
    rintro ⟨⟩
    exact ht rfl
  case write => exact ht (Machine.hostWrite_status_fault h).1
  case load => exact ht (Machine.hostLoad_status_fault h).1

/-- Settles O48: what every step keeps of the state a run started in, with one of the outcomes of its last step. -/
theorem runEndsHaltedOrFaulted : Obligations.RunEndsHaltedOrFaulted := by
  intro s t fuel hs hf h
  obtain ⟨hreached, hstopped⟩ := Machine.reachedFrom_of_hostRun hs hf h
  obtain ⟨more, hmore⟩ := hreached.out_grows
  refine ⟨?_, Machine.State.memRead_congr hreached.cfg_eq hreached.mem_eq, hreached.cfg_eq, more, hmore.symm⟩
  exact hreached.outcome.resolve_left fun hrunning => hstopped hrunning.1

/-- Settles O49: run and step find the core stopped, and the memory port changes memory alone. -/
theorem stoppedCoreWaitsForReset : Obligations.StoppedCoreWaitsForReset := by
  intro s hs
  have hstopped := Machine.ne_running_of_stopped hs
  exact ⟨fun _ => Machine.hostRun_of_stopped hs, fun _ => Machine.step_ne_next_of_not_running hstopped,
    fun _ _ _ => Machine.hostWrite_status_fault, fun _ _ => Machine.hostLoad_status_fault,
    _, Machine.hostReset_of_not_running hstopped, rfl⟩

/-- Settles O50: a run that returns returns at once or by a loop, to which more fuel makes no difference. -/
theorem runEndDoesNotDependOnFuel : Obligations.RunEndDoesNotDependOnFuel := by
  intro s t n m hnm h
  obtain ⟨hs, rfl⟩ | ⟨hs, hloop⟩ := Machine.hostRun_eq_returned h
  · exact Machine.hostRun_of_stopped hs
  · rw [Machine.hostRun_of_idle hs, Machine.runLoop_mono hnm hloop]

end Sys2Proof

/-! PROOFS. Decimal text: the host's rendering of the output (R111), and the assembler on an instruction written in the
grammar's own form (R63). -/

namespace Sys2Proof

namespace Machine

variable {n : Nat} {c : Char} {l cs : List Char}

/-! ### Decimal digits -/

/-- A property of the ten digits holds of every digit character. -/
theorem forall_digitChar {P : Nat → Char → Prop} (h : ∀ k < 10, P k (Char.ofNat (48 + k))) (d : Nat) :
    P (d % 10) (digitChar d) :=
  h (d % 10) (Nat.mod_lt d (by decide))

theorem digitValue?_digitChar (d : Nat) : digitValue? (digitChar d) = some (d % 10) :=
  forall_digitChar (P := fun k c => digitValue? c = some k) (by decide) d

theorem isDigit_digitChar (d : Nat) : (digitChar d).isDigit = true :=
  forall_digitChar (P := fun _ c => c.isDigit = true) (by decide) d

theorem digitChar_eq_zero_iff (d : Nat) : digitChar d = '0' ↔ d % 10 = 0 :=
  forall_digitChar (P := fun k c => c = '0' ↔ k = 0) (by decide) d

/-- A decimal digit in front counts once more for each digit after it. -/
theorem digitsValue?_cons_digitChar (v d : Nat) :
    digitsValue? 10 v (digitChar d :: cs) = digitsValue? 10 (10 * v + d % 10) cs := by
  simp only [digitsValue?, digitValue?_digitChar, Nat.mod_lt d (show 0 < 10 by decide), if_true]

/-- One, two or three digits, by the size of the number. -/
theorem decimalDigits_cases (n : Nat) :
    n < 10 ∧ decimalDigits n = [digitChar n] ∨
      10 ≤ n ∧ n < 100 ∧ decimalDigits n = [digitChar (n / 10), digitChar n] ∨
      100 ≤ n ∧ decimalDigits n = [digitChar (n / 100), digitChar (n / 10), digitChar n] := by
  unfold decimalDigits
  split
  · exact .inl ⟨‹_›, rfl⟩
  · split
    · exact .inr (.inl ⟨by omega, ‹_›, rfl⟩)
    · exact .inr (.inr ⟨by omega, rfl⟩)

theorem digitsValue?_decimalDigits (hn : n < 1000) : digitsValue? 10 0 (decimalDigits n) = some n := by
  obtain ⟨h, hd⟩ | ⟨-, h, hd⟩ | ⟨-, hd⟩ := decimalDigits_cases n
  all_goals
    simp only [hd, digitsValue?_cons_digitChar]
    exact congrArg some (by omega)

theorem isDigit_of_mem_decimalDigits (hc : c ∈ decimalDigits n) : c.isDigit = true := by
  obtain ⟨-, hd⟩ | ⟨-, -, hd⟩ | ⟨-, hd⟩ := decimalDigits_cases n
  all_goals
    rw [hd] at hc
    simp only [List.mem_cons, List.not_mem_nil, or_false] at hc
  · rw [hc]
    exact isDigit_digitChar _
  · obtain rfl | rfl := hc <;> exact isDigit_digitChar _
  · obtain rfl | rfl | rfl := hc <;> exact isDigit_digitChar _

/-- The first digit is not zero, except that of 0 itself. -/
theorem head?_decimalDigits_ne_zero (h0 : n ≠ 0) (hn : n < 1000) : (decimalDigits n).head? ≠ some '0' := by
  obtain ⟨h, hd⟩ | ⟨hl, h, hd⟩ | ⟨hl, hd⟩ := decimalDigits_cases n
  all_goals
    rw [hd, List.head?_cons, ne_eq, Option.some.injEq, digitChar_eq_zero_iff]
    omega

/-! ### The output's text (R111) -/

theorem splitLines_renderOutput (out : List Byte) :
    splitLines (renderOutput out) = (out.map fun v => decimalDigits v.toNat) ++ [[]] := by
  induction out with
  | nil => rfl
  | cons v vs ih =>
    have hline : '\n' ∉ decimalDigits v.toNat := fun h => absurd (isDigit_of_mem_decimalDigits h) (by decide)
    rw [renderOutput, splitLines_append_newline hline, ih, List.map_cons, List.cons_append]

end Machine

/-- Settles O53: no digit is a line feed, so each value has its line, and each digit counts by its place. -/
theorem outputTextIsDecimalLines : Obligations.OutputTextIsDecimalLines := by
  refine fun out => ⟨Machine.splitLines_renderOutput out, fun v _ => ?_⟩
  have hv : v.toNat < 1000 := v.isLt.trans (by decide)
  refine ⟨Machine.digitsValue?_decimalDigits hv, ?_, fun h0 => ?_⟩
  · rintro rfl
    rfl
  · exact Machine.head?_decimalDigits_ne_zero (fun h => h0 (BitVec.eq_of_toNat_eq h)) hv

end Sys2Proof

/-! PROOFS. The assembler on an instruction written in the grammar's own form (R63): its line, its operands and its
value are read back as they were written. -/

namespace Sys2Proof

namespace Machine

variable {sep c : Char} {l m x w a b cs text : List Char}

/-! ### Separators and white space -/

theorem splitOn_of_notMem (hl : sep ∉ l) : splitOn sep l = [l] := by
  induction l with
  | nil => rfl
  | cons c l ih =>
    obtain ⟨hc, hl⟩ := not_or.1 (mt List.mem_cons.2 hl)
    simp only [splitOn, Ne.symm hc, if_false, ih hl]

theorem splitOn_append_sep (hl : sep ∉ l) (cs : List Char) : splitOn sep (l ++ sep :: cs) = l :: splitOn sep cs := by
  induction l with
  | nil => simp only [List.nil_append, splitOn, if_true]
  | cons c l ih =>
    obtain ⟨hc, hl⟩ := not_or.1 (mt List.mem_cons.2 hl)
    simp only [List.cons_append, splitOn, Ne.symm hc, if_false, ih hl]

theorem splitLines_of_notMem (hl : '\n' ∉ l) : splitLines l = [l] := by
  induction l with
  | nil => rfl
  | cons c l ih =>
    obtain ⟨hc, hl⟩ := not_or.1 (mt List.mem_cons.2 hl)
    simp only [splitLines, Ne.symm hc, if_false, ih hl]

theorem dropWhile_eq_self_of_head? {p : Char → Bool} (h : ∀ c ∈ l.head?, p c = false) : l.dropWhile p = l := by
  cases l with
  | nil => rfl
  | cons c l => exact List.dropWhile_cons_of_neg (by simp [h c rfl])

/-- Nothing is trimmed where no white space stands at the ends. -/
theorem trim_eq_self (hh : ∀ c ∈ l.head?, c.isWhitespace = false) (ht : ∀ c ∈ l.getLast?, c.isWhitespace = false) :
    trim l = l := by
  have hrev : ∀ c ∈ l.reverse.head?, c.isWhitespace = false := by rwa [List.head?_reverse]
  rw [trim, dropWhile_eq_self_of_head? hh, dropWhile_eq_self_of_head? hrev, List.reverse_reverse]

theorem trim_space_cons (l : List Char) : trim (' ' :: l) = trim l := rfl

/-! ### Words: mnemonics, registers and numbers -/

/-- Letters and digits, at least one of them. -/
structure IsWord (l : List Char) : Prop where
  ne_nil : l ≠ []
  isAlphanum : ∀ c ∈ l, c.isAlphanum = true

/-- What is written in the grammar's own form: letters, digits, commas and spaces. -/
def isTextChar (c : Char) : Bool := c.isAlphanum || c == ',' || c == ' '

theorem isWhitespace_of_isAlphanum (h : c.isAlphanum = true) : c.isWhitespace = false := by
  by_contra hw
  simp only [Bool.not_eq_false, Char.isWhitespace, Bool.or_eq_true, decide_eq_true_eq] at hw
  obtain ((rfl | rfl) | rfl) | rfl := hw <;> exact absurd h (by decide)

theorem isWord_of_all (hne : w ≠ []) (h : w.all Char.isAlphanum = true) : IsWord w := ⟨hne, List.all_eq_true.1 h⟩

theorem IsWord.notMem (hw : IsWord w) (hs : sep.isAlphanum = false) : sep ∉ w := fun h =>
  absurd (hw.isAlphanum sep h) (by simp [hs])

theorem notMem_of_isTextChar (hl : ∀ c ∈ l, isTextChar c = true) (hs : isTextChar sep = false) : sep ∉ l := fun h =>
  absurd (hl sep h) (by simp [hs])

theorem IsWord.isTextChar (hw : IsWord w) : ∀ c ∈ w, isTextChar c = true := fun c hc => by
  simp [Machine.isTextChar, hw.isAlphanum c hc]

theorem IsWord.trim_eq (hw : IsWord w) : trim w = w :=
  trim_eq_self (fun c hc => isWhitespace_of_isAlphanum (hw.isAlphanum c (List.mem_of_mem_head? hc)))
    fun c hc => isWhitespace_of_isAlphanum (hw.isAlphanum c (List.mem_of_mem_getLast? hc))

/-- Text between two words is not trimmed. -/
theorem trim_of_words (hm : IsWord m) (hw : IsWord w) : trim (m ++ (x ++ w)) = m ++ (x ++ w) := by
  refine trim_eq_self (fun c hc => ?_) fun c hc => ?_
  · rw [List.head?_append_of_ne_nil _ hm.ne_nil] at hc
    exact isWhitespace_of_isAlphanum (hm.isAlphanum c (List.mem_of_mem_head? hc))
  · rw [← List.append_assoc, List.getLast?_append_of_ne_nil _ hw.ne_nil] at hc
    exact isWhitespace_of_isAlphanum (hw.isAlphanum c (List.mem_of_mem_getLast? hc))

theorem isWord_decimalDigits (n : Nat) : IsWord (decimalDigits n) where
  ne_nil := by obtain ⟨-, h⟩ | ⟨-, -, h⟩ | ⟨-, h⟩ := decimalDigits_cases n <;> simp [h]
  isAlphanum c hc := by simp [Char.isAlphanum, isDigit_of_mem_decimalDigits hc]

theorem isWord_regText (r : Byte) : IsWord (regText r) where
  ne_nil := List.cons_ne_nil _ _
  isAlphanum := List.forall_mem_cons.2 ⟨rfl, (isWord_decimalDigits r.toNat).isAlphanum⟩

/-! ### Operands -/

/-- The operands that `asmInstr?` finds after a mnemonic and a space. -/
def operandsAfterSpace (ops : List Char) : List (List Char) := (splitOn ',' (trim (' ' :: ops))).map trim

theorem operandsAfterSpace_word (ha : IsWord a) : operandsAfterSpace a = [a] := by
  rw [operandsAfterSpace, trim_space_cons, ha.trim_eq, splitOn_of_notMem (ha.notMem rfl), List.map_singleton,
    ha.trim_eq]

theorem operandsAfterSpace_two_words (ha : IsWord a) (hb : IsWord b) :
    operandsAfterSpace (a ++ [',', ' '] ++ b) = [a, b] := by
  have hb' : ',' ∉ ' ' :: b := by simp [hb.notMem]
  have hsplit : splitOn ',' (a ++ ([',', ' '] ++ b)) = [a, ' ' :: b] := by
    rw [← splitOn_of_notMem hb']
    exact splitOn_append_sep (ha.notMem rfl) (' ' :: b)
  rw [operandsAfterSpace, trim_space_cons, List.append_assoc, trim_of_words ha hb, hsplit, List.map_cons,
    List.map_singleton, trim_space_cons, ha.trim_eq, hb.trim_eq]

theorem asmReg?_regText {r : Byte} (hr : r.toNat < 8) : asmReg? (regText r) = some r := by
  have h : ∀ k < 8, asmReg? ('R' :: decimalDigits k) = some (BitVec.ofNat 8 k) := by decide
  rw [regText, h r.toNat hr, BitVec.ofNat_toNat, BitVec.setWidth_eq]

theorem byteLiteral?_of_digitsValue? {base n : Nat} (hl : l ≠ []) (hd : digitsValue? base 0 l = some n)
    (hn : n ≤ 255) : byteLiteral? base l = some (BitVec.ofNat 8 n) := by
  cases l with
  | nil => exact absurd rfl hl
  | cons c l => simp only [byteLiteral?, hd, hn, if_true]

theorem byteLiteral?_decimalDigits (v : Byte) : byteLiteral? 10 (decimalDigits v.toNat) = some v := by
  have hv : v.toNat ≤ 255 := Nat.le_of_lt_succ v.isLt
  have hd := digitsValue?_decimalDigits (show v.toNat < 1000 by omega)
  rw [byteLiteral?_of_digitsValue? (isWord_decimalDigits v.toNat).ne_nil hd hv, BitVec.ofNat_toNat, BitVec.setWidth_eq]

/-- No letter of another base stands among decimal digits. -/
theorem asmValue?_decimalDigits (v : Byte) : asmValue? (decimalDigits v.toNat) = some (.number v) := by
  have hdigit : ∀ c ∈ decimalDigits v.toNat, c.isDigit = true := fun c => isDigit_of_mem_decimalDigits
  unfold asmValue?
  split
  case h_1 ds h =>
    rw [h] at hdigit
    exact absurd (hdigit 'x' (by simp)) (by decide)
  case h_2 ds h =>
    rw [h] at hdigit
    exact absurd (hdigit 'b' (by simp)) (by decide)
  case h_3 => rw [byteLiteral?_decimalDigits]

/-! ### One line -/

/-- A text with no line feed, comment or label is one line. -/
theorem assemble_of_clean {i : AsmInstr} {bs : List Byte} (hc : ∀ c ∈ text, isTextChar c = true)
    (ht : trim text = text) (hi : asmInstr? text = some i) (he : i.encode [] = .ok bs) : assemble text = .ok bs := by
  have hlines : splitLines text = [text] := splitLines_of_notMem (notMem_of_isTextChar hc rfl)
  have hcomment : dropComment text = text :=
    List.takeWhile_eq_self_iff.2 fun c h => bne_iff_ne.2 fun e => notMem_of_isTextChar hc rfl (e ▸ h)
  have hlabel : splitOn ':' text = [text] := splitOn_of_notMem (notMem_of_isTextChar hc rfl)
  have hne : text.isEmpty = false := by
    cases text with
    | nil => cases hi
    | cons => rfl
  have hline : asmLine? text = some ⟨none, some i⟩ := by
    simp only [asmLine?, hcomment, hlabel, ht, asmBody, hne, hi, Bool.false_eq_true, if_false, Option.map_some]
  simp [assemble, hlines, asmLines, hline, labelTable, duplicateLabel?, encodeLines, he]

/-- A mnemonic and its operands: the text begins and ends with a word. -/
theorem assemble_of_words {i : AsmInstr} {bs : List Byte} (hm : IsWord m) (hx : ∀ c ∈ x, isTextChar c = true)
    (hw : IsWord w) (hi : asmInstr? (m ++ (x ++ w)) = some i) (he : i.encode [] = .ok bs) :
    assemble (m ++ (x ++ w)) = .ok bs := by
  refine assemble_of_clean ?_ (trim_of_words hm hw) hi he
  simp only [List.forall_mem_append]
  exact ⟨hm.isTextChar, hx, hw.isTextChar⟩

/-- An operand with the space before it and the comma and space after it. -/
theorem isTextChar_of_mem_operand (ha : IsWord a) : ∀ c ∈ ' ' :: (a ++ [',', ' ']), isTextChar c = true := by
  simp only [List.forall_mem_cons, List.forall_mem_append]
  exact ⟨rfl, ha.isTextChar, rfl, rfl, nofun⟩

theorem assemble_of_oneReg {mk : Byte → Instr} {r : Byte} (hm : IsWord m) (hr : r.toNat < 8)
    (hi : ∀ ops, asmInstr? (m ++ ' ' :: ops) = asmOneReg mk (operandsAfterSpace ops)) :
    assemble (m ++ ' ' :: regText r) = .ok (encode (mk r)) := by
  refine assemble_of_words (x := [' ']) (i := .plain (mk r)) hm (List.all_eq_true.1 rfl) (isWord_regText r)
    ((hi (regText r)).trans ?_) rfl
  rw [operandsAfterSpace_word (isWord_regText r), asmOneReg, asmReg?_regText hr]
  rfl

theorem assemble_of_twoReg {mk : Byte → Byte → Instr} {ra rb : Byte} (hm : IsWord m) (ha : ra.toNat < 8)
    (hb : rb.toNat < 8) (hi : ∀ ops, asmInstr? (m ++ ' ' :: ops) = asmTwoReg mk (operandsAfterSpace ops)) :
    assemble (m ++ ' ' :: (regText ra ++ [',', ' '] ++ regText rb)) = .ok (encode (mk ra rb)) := by
  refine assemble_of_words (x := ' ' :: (regText ra ++ [',', ' '])) (i := .plain (mk ra rb)) hm
    (isTextChar_of_mem_operand (isWord_regText ra)) (isWord_regText rb)
    ((hi (regText ra ++ [',', ' '] ++ regText rb)).trans ?_) rfl
  rw [operandsAfterSpace_two_words (isWord_regText ra) (isWord_regText rb), asmTwoReg, asmReg?_regText ha,
    asmReg?_regText hb]

theorem assemble_ldi {r v : Byte} (hr : r.toNat < 8) : assemble (instrText (.ldi r v)) = .ok (encode (.ldi r v)) := by
  have hi : ∀ ops, asmInstr? (['L', 'D', 'I'] ++ ' ' :: ops) = asmLdi (operandsAfterSpace ops) := fun _ => rfl
  refine assemble_of_words (m := ['L', 'D', 'I']) (x := ' ' :: (regText r ++ [',', ' '])) (i := .ldi r (.number v))
    (isWord_of_all nofun rfl) (isTextChar_of_mem_operand (isWord_regText r)) (isWord_decimalDigits v.toNat)
    ((hi (regText r ++ [',', ' '] ++ decimalDigits v.toNat)).trans ?_) rfl
  rw [operandsAfterSpace_two_words (isWord_regText r) (isWord_decimalDigits v.toNat), asmLdi, asmReg?_regText hr,
    asmValue?_decimalDigits]

/-- Each mnemonic has its operands read in its own form: one register, two, or a register and a value. -/
theorem assemble_instrText (i : Instr) (h : ∀ r ∈ i.regOperands, r.toNat < 8) :
    assemble (instrText i) = .ok (encode i) := by
  cases i with
  | halt => decide
  | ldi r v => exact assemble_ldi (h r List.mem_cons_self)
  | prn r =>
    exact assemble_of_oneReg (m := ['P', 'R', 'N']) (isWord_of_all nofun rfl) (h r List.mem_cons_self) fun _ => rfl
  | mul ra rb =>
    exact assemble_of_twoReg (m := ['M', 'U', 'L']) (isWord_of_all nofun rfl) (h ra List.mem_cons_self)
      (h rb (List.mem_cons_of_mem ra List.mem_cons_self)) fun _ => rfl
  | jmp r =>
    exact assemble_of_oneReg (m := ['J', 'M', 'P']) (isWord_of_all nofun rfl) (h r List.mem_cons_self) fun _ => rfl
  | cmp ra rb =>
    exact assemble_of_twoReg (m := ['C', 'M', 'P']) (isWord_of_all nofun rfl) (h ra List.mem_cons_self)
      (h rb (List.mem_cons_of_mem ra List.mem_cons_self)) fun _ => rfl
  | jeq r =>
    exact assemble_of_oneReg (m := ['J', 'E', 'Q']) (isWord_of_all nofun rfl) (h r List.mem_cons_self) fun _ => rfl
  | jne r =>
    exact assemble_of_oneReg (m := ['J', 'N', 'E']) (isWord_of_all nofun rfl) (h r List.mem_cons_self) fun _ => rfl

end Machine

/-- Settles O52: the operands are words around a comma, the registers' digits and the value's read back as they were
written. -/
theorem assemblerAgreesWithEncoder : Obligations.AssemblerAgreesWithEncoder := by
  intro i h
  exact Machine.assemble_instrText i (by simpa [Instr.wf] using h)

end Sys2Proof
